-- ==== Sys2Proof/Word.lean ====
section
/-! DEFINITION. The word types of the BVU: a port register is 32 bits, a storage byte is 8 bits (00_scope.md R12, R21). -/

namespace Sys2Proof

/-- A 32-bit register value, bit 0 the least significant (R21). -/
abbrev Word := BitVec 32

/-- A storage byte. -/
abbrev Byte := BitVec 8

end Sys2Proof
end

