-- ==== Sys2Proof/Syntax.lean ====
section
/-! DEFINITION. The commands of the BVU: one constructor per row of the opcode map (30_encoding.md R118). A command word
carries no operand (R110, R117), so no constructor has a field; operands are the registers ARG0 and ARG1 (R116). -/

namespace Sys2Proof

/-- A command. -/
inductive Instr where
  /-- R150 -/
  | nop
  /-- R152 -/
  | create
  /-- R156 -/
  | resize
  /-- R160 -/
  | destroy
  /-- R171 -/
  | get
  /-- R172 -/
  | set
  /-- R173 -/
  | clear
  /-- R174 -/
  | toggle
  /-- R195 -/
  | setRegion
  /-- R196 -/
  | clearRegion
  /-- R197 -/
  | toggleRegion
  /-- R201 -/
  | setAll
  /-- R202 -/
  | clearAll
  /-- R203 -/
  | toggleAll
  /-- R224 -/
  | countSet
  /-- R225 -/
  | countClear
  /-- R245 -/
  | findNextClear
  /-- R246 -/
  | findNextSet
  /-- R248 -/
  | findPrevClear
  /-- R249 -/
  | findPrevSet
  /-- R251 -/
  | firstClear
  /-- R252 -/
  | firstSet
  /-- R254 -/
  | lastClear
  /-- R255 -/
  | lastSet
  deriving DecidableEq, Repr

end Sys2Proof
end

