-- ==== Sys2Proof/Machine/Bus.lean ====
section
/-! DEFINITION. The port as the outside world sees it: register names, port accesses and the reset input. -/

namespace Sys2Proof.Machine

/-- A byte offset of the port space, 0x00 to 0xFF (20_memory.md R70). -/
abbrev PortOffset := BitVec 8

/-- The named registers of the port (10_state.md R37). -/
inductive Reg where
  | cmd
  | arg0
  | arg1
  | status
  | result
  | bitcount
  | capacity
  | daddr
  | data
  | errinfo
  | id
  deriving DecidableEq, Repr

/-- The offset of a register (R37). -/
def Reg.offset : Reg → PortOffset
  | .cmd => 0x00#8
  | .arg0 => 0x04#8
  | .arg1 => 0x08#8
  | .status => 0x0C#8
  | .result => 0x10#8
  | .bitcount => 0x14#8
  | .capacity => 0x18#8
  | .daddr => 0x1C#8
  | .data => 0x20#8
  | .errinfo => 0x24#8
  | .id => 0x28#8

/-- The register at an offset; `none` at an unmapped one (R37, 20_memory.md R73). -/
def Reg.ofOffset (off : PortOffset) : Option Reg :=
  match off.toNat with
  | 0x00 => some .cmd
  | 0x04 => some .arg0
  | 0x08 => some .arg1
  | 0x0C => some .status
  | 0x10 => some .result
  | 0x14 => some .bitcount
  | 0x18 => some .capacity
  | 0x1C => some .daddr
  | 0x20 => some .data
  | 0x24 => some .errinfo
  | 0x28 => some .id
  | _ => none

/-- One thing the outside world does to the block. -/
inductive Input where
  /-- A host read of `width` bytes at a port offset. -/
  | read (width : Nat) (off : PortOffset)
  /-- A host write of `width` bytes at a port offset; a 32-bit write carries the whole of `v`. -/
  | write (width : Nat) (off : PortOffset) (v : Word)
  /-- The host statement POLL: STATUS reads until one shows BUSY = 0 (30_encoding.md R130). -/
  | poll
  /-- The platform asserts reset (70_reset_and_hazards.md R310). -/
  | reset
  deriving DecidableEq, Repr

/-- The accesses the interface gives a meaning: 32-bit, at a multiple of 4 (20_memory.md R71). -/
def accessLegal (width : Nat) (off : PortOffset) : Bool :=
  width == 4 && off.toNat % 4 == 0

/-- The input is held while BUSY = 1: every host access but a read of STATUS (20_memory.md R85). A reset is no host
access and is never held (70_reset_and_hazards.md R310). -/
def Input.held : Input → Bool
  | .read width off => !(accessLegal width off && off == Reg.status.offset)
  | .write _ _ _ => true
  | .poll => false
  | .reset => false

end Sys2Proof.Machine
end

