-- ==== Sys2Proof/WellFormed.lean ====
section
/-! DEFINITION. Well-formedness. A command has no operand field, so every command is well formed; an input of the port is
well formed when it is an access the interface gives a meaning (20_memory.md R71). -/

namespace Sys2Proof

/-- A command carries no field to check (30_encoding.md R110, R117). -/
def Instr.wf : Instr → Bool
  | .nop | .create | .resize | .destroy => true
  | .get | .set | .clear | .toggle => true
  | .setRegion | .clearRegion | .toggleRegion => true
  | .setAll | .clearAll | .toggleAll => true
  | .countSet | .countClear => true
  | .findNextClear | .findNextSet | .findPrevClear | .findPrevSet => true
  | .firstClear | .firstSet | .lastClear | .lastSet => true

/-- A port access is 32 bits wide and aligned (20_memory.md R71). -/
def Machine.Input.wf : Machine.Input → Bool
  | .read width off => Machine.accessLegal width off
  | .write width off _ => Machine.accessLegal width off
  | .poll => true
  | .reset => true

end Sys2Proof
end

