-- ==== Sys2Proof/Decode.lean ====
section
/-! DEFINITION. The decoder, total on every 32-bit word and rejecting by name (30_encoding.md R110 to R120), and the
encoder. -/

namespace Sys2Proof

/-- Why a word is ILLEGAL (30_encoding.md R120). The hardware treats the three alike. -/
inductive Illegal where
  /-- A bit of CMD[31:8] is set. -/
  | reservedBits
  /-- CLASS is 6 to 15. -/
  | reservedClass
  /-- FUNC is reserved in its class. -/
  | reservedFunc
  deriving DecidableEq, Repr

/-- RESV, `CMD[31:8]` (R111). -/
def fieldResv (w : Word) : BitVec 24 := w.extractLsb' 8 24

/-- CLASS, `CMD[7:4]` (R111). -/
def fieldClass (w : Word) : BitVec 4 := w.extractLsb' 4 4

/-- FUNC, `CMD[3:0]` (R111). -/
def fieldFunc (w : Word) : BitVec 4 := w.extractLsb' 0 4

/-- The opcode, `CMD[7:0]` (R111). -/
def opcodeByte (w : Word) : Byte := w.extractLsb' 0 8

/-- Class 0, storage control (R115). -/
def decodeStorage (func : Nat) : Except Illegal Instr :=
  match func with
  | 0 => .ok .nop
  | 1 => .ok .create
  | 2 => .ok .resize
  | 3 => .ok .destroy
  | _ => .error .reservedFunc

/-- Class 1, single bit (R112). -/
def decodeBit (func : Nat) : Except Illegal Instr :=
  match func with
  | 0 => .ok .get
  | 1 => .ok .set
  | 2 => .ok .clear
  | 3 => .ok .toggle
  | _ => .error .reservedFunc

/-- Class 2, region (R112). -/
def decodeRegion (func : Nat) : Except Illegal Instr :=
  match func with
  | 1 => .ok .setRegion
  | 2 => .ok .clearRegion
  | 3 => .ok .toggleRegion
  | _ => .error .reservedFunc

/-- Class 3, whole vector (R112). -/
def decodeWhole (func : Nat) : Except Illegal Instr :=
  match func with
  | 1 => .ok .setAll
  | 2 => .ok .clearAll
  | 3 => .ok .toggleAll
  | _ => .error .reservedFunc

/-- Class 4, popcount (R114). -/
def decodePopcount (func : Nat) : Except Illegal Instr :=
  match func with
  | 0 => .ok .countSet
  | 1 => .ok .countClear
  | _ => .error .reservedFunc

/-- Class 5, search (R113): bit 0 is the target, bit 1 the direction, bit 2 the anchor. -/
def decodeSearch (func : Nat) : Except Illegal Instr :=
  match func with
  | 0 => .ok .findNextClear
  | 1 => .ok .findNextSet
  | 2 => .ok .findPrevClear
  | 3 => .ok .findPrevSet
  | 4 => .ok .firstClear
  | 5 => .ok .firstSet
  | 6 => .ok .lastClear
  | 7 => .ok .lastSet
  | _ => .error .reservedFunc

/-- The decoder: a total function of the word (R119), by the fields of R111. -/
def decode (w : Word) : Except Illegal Instr :=
  if fieldResv w = 0#24 then
    match (fieldClass w).toNat with
    | 0 => decodeStorage (fieldFunc w).toNat
    | 1 => decodeBit (fieldFunc w).toNat
    | 2 => decodeRegion (fieldFunc w).toNat
    | 3 => decodeWhole (fieldFunc w).toNat
    | 4 => decodePopcount (fieldFunc w).toNat
    | 5 => decodeSearch (fieldFunc w).toNat
    | _ => .error .reservedClass
  else .error .reservedBits

/-- The encoder: the word of a command, from the opcode map (R118). -/
def encode : Instr → Word
  | .nop => 0x00000000#32
  | .create => 0x00000001#32
  | .resize => 0x00000002#32
  | .destroy => 0x00000003#32
  | .get => 0x00000010#32
  | .set => 0x00000011#32
  | .clear => 0x00000012#32
  | .toggle => 0x00000013#32
  | .setRegion => 0x00000021#32
  | .clearRegion => 0x00000022#32
  | .toggleRegion => 0x00000023#32
  | .setAll => 0x00000031#32
  | .clearAll => 0x00000032#32
  | .toggleAll => 0x00000033#32
  | .countSet => 0x00000040#32
  | .countClear => 0x00000041#32
  | .findNextClear => 0x00000050#32
  | .findNextSet => 0x00000051#32
  | .findPrevClear => 0x00000052#32
  | .findPrevSet => 0x00000053#32
  | .firstClear => 0x00000054#32
  | .firstSet => 0x00000055#32
  | .lastClear => 0x00000056#32
  | .lastSet => 0x00000057#32

/-- The opcode byte of a command, `w[7:0]` of its word: what a failure of it records in ERROP (60_exceptions.md R272). -/
def opcode (i : Instr) : Byte := opcodeByte (encode i)

/-- The command word that has the value `w` in its low `nbits` bits and zeros above them. A command is one 32-bit word,
moved whole (20_memory.md R74), so no byte order enters. -/
def tableWord (nbits w : Nat) : Word := BitVec.ofNat 32 (w % 2 ^ nbits)

/-- The decoder on a row of the opcode table. -/
def decodeTableWord (nbits w : Nat) : Option Instr :=
  match decode (tableWord nbits w) with
  | .ok i => some i
  | .error _ => none

end Sys2Proof
end

