-- ==== Sys2Proof/Config.lean ====
section
/-! DEFINITION. What an implementation fixes, and the free values the spec leaves open. An `opaque` constant here has no
value a proof could see: a claim holds whatever it is. -/

namespace Sys2Proof

/-- The reference configuration `MAX_BITS = 65536` (00_scope.md R10), which `State.reset` takes (DESIGN CHOICE, log 1).
Every statement about a state holds for every capacity, since `MAX_BITS` is the field `State.capacity`. -/
def Config.referenceMaxBits : Word := 65536#32

/-- The constant of the ID register (10_state.md R45). -/
def Config.idValue : Word := 0x42565507#32

/-- The `n`-th result of `draw_8()` (00_scope.md R23): a free value. -/
opaque Config.freeByte : Nat → Byte

/-- How many STATUS reads, POLL reads or resets come between the `n`-th issued command and the engine's step that executes
it, if so many are waiting: a free value, always finite (20_memory.md R87, 70_reset_and_hazards.md R330; log 7). -/
opaque Config.engineDelay : Nat → Nat

/-- `PORT_BASE`, the host bus address of port offset 0 (00_scope.md R14): a platform parameter no rule depends on. -/
opaque Config.portBase : Nat

/-- The host bus address of a port offset (20_memory.md R83). -/
def Config.hostAddress (off : BitVec 8) : Nat := Config.portBase + off.toNat

end Sys2Proof
end

