-- ==== Sys2Proof/Machine/State.lean ====
section
/-! DEFINITION. The state of the BVU as plain data, the reasons a step can stop, and the state after reset. -/

namespace Sys2Proof.Machine

/-- The failure codes of STATUS.ECODE (60_exceptions.md R271); 5 to 15 are never written, so they have no constructor. -/
inductive ECode where
  | none
  | indexOutOfRange
  | noInstance
  | illegalCommand
  | allocationFailure
  deriving DecidableEq, Repr

/-- The fields of the STATUS register (10_state.md R40). The register's word is `Status.word`. -/
structure Status where
  busy : Bool
  valid : Bool
  found : Bool
  err : Bool
  fault : Bool
  ecode : ECode
  errop : Byte
  deriving DecidableEq, Repr

/-- The build parameter CHECKS (00_scope.md R11). -/
inductive Checks where
  | checked
  | unchecked
  deriving DecidableEq, Repr

/-- Why a step stops with a fault. -/
inductive Fault where
  /-- Raised by a command or a DATA access that would use the storage while the in-use bytes run past its last byte: no
  byte exists there (10_state.md R34, 20_memory.md R70). No state that keeps `BITCOUNT <= MAX_BITS` (R33) raises it. Safe. -/
  | storageHole
  deriving DecidableEq, Repr

/-- Why a step has no meaning. -/
inductive Refusal where
  /-- Raised by an arm of `exec` whose command has no meaning yet. Safe. -/
  | notModelled (mnemonic : String)
  /-- Raised in the build `CHECKS = unchecked` by every command and DATA access whose checked execution would raise a
  fatal failure (00_scope.md R11, 60_exceptions.md R284). Safe. -/
  | uncheckedBuild
  /-- Raised by a port access that is not 32 bits wide or not at a multiple of 4 (20_memory.md R71). Safe. -/
  | portAccess
  deriving DecidableEq, Repr

/-- The storage: (index, byte) pairs, indices strictly rising, no byte 0x00 listed; an unlisted byte reads 0x00 (log 4).
The form is `Memory.wf`. -/
abbrev Memory := List Host.Cell

/-- The whole state. -/
structure State where
  /-- CMD (R38). -/
  cmd : Word
  /-- ARG0 (R39). -/
  arg0 : Word
  /-- ARG1 (R39). -/
  arg1 : Word
  /-- STATUS (R40), VALID (R32) among its fields. -/
  status : Status
  /-- RESULT (R42). -/
  result : Word
  /-- BITCOUNT (R33, R43). -/
  bitcount : Word
  /-- DADDR (R44). -/
  daddr : Word
  /-- ERRINFO (R46). -/
  errinfo : Word
  /-- The storage (R34). -/
  storage : Memory
  /-- CAPACITY: the parameter MAX_BITS (R43, R10). No step changes it. -/
  capacity : Word
  /-- The parameter CHECKS (R11). No step changes it. -/
  checks : Checks
  /-- The model's own: port accesses and resets still to come, oldest first (log 8). -/
  inputs : List Input
  /-- The model's own: the values host reads have returned, oldest first (log 8). -/
  reads : List Word
  /-- The model's own: how many unheld inputs still come before the engine executes the pending command (log 7). -/
  delay : Nat
  /-- The model's own: how many commands have been issued (log 7). -/
  issued : Nat
  /-- The model's own: how many free bytes have been drawn (log 6). -/
  draws : Nat
  deriving DecidableEq, Repr

/-- STATUS after reset (R40, R49). -/
def Status.reset : Status where
  busy := false
  valid := false
  found := false
  err := false
  fault := false
  ecode := .none
  errop := 0#8

/-- The state after reset (R49) of a BVU with a given capacity and build. -/
def State.resetOf (capacity : Word) (checks : Checks) : State where
  cmd := 0#32
  arg0 := 0#32
  arg1 := 0#32
  status := Status.reset
  result := 0#32
  bitcount := 0#32
  daddr := 0#32
  errinfo := 0#32
  storage := []
  capacity := capacity
  checks := checks
  inputs := []
  reads := []
  delay := 0
  issued := 0
  draws := 0

/-- The state after reset (R49), in the reference configuration (log 1). -/
def State.reset : State := State.resetOf Config.referenceMaxBits .checked

end Sys2Proof.Machine
end

