-- ==== Sys2Proof/Machine/Flags.lean ====
section
/-! DEFINITION. The STATUS fields: the register's word, and the updates of FOUND, BUSY, ERR and ECODE that commands share. -/

namespace Sys2Proof.Machine

/-- The value of ECODE (60_exceptions.md R271). -/
def ECode.bits : ECode → BitVec 4
  | .none => 0#4
  | .indexOutOfRange => 1#4
  | .noInstance => 2#4
  | .illegalCommand => 3#4
  | .allocationFailure => 4#4

/-- The failures of the fatal tier (60_exceptions.md R271). -/
def ECode.fatal : ECode → Bool
  | .none => false
  | .indexOutOfRange => true
  | .noInstance => true
  | .illegalCommand => true
  | .allocationFailure => false

/-- One bit of a register. -/
def flagBit (b : Bool) : BitVec 1 := BitVec.ofBool b

/-- The STATUS register as the host reads it (10_state.md R40): from bit 31 down, reserved zeros, ERROP in 23:16,
reserved zeros, ECODE in 11:8, reserved zeros, FAULT, ERR, FOUND, VALID, BUSY. -/
def Status.word (st : Status) : Word :=
  (0#8 ++ st.errop ++ 0#4 ++ st.ecode.bits ++ 0#3 ++ flagBit st.fault ++ flagBit st.err ++ flagBit st.found ++
    flagBit st.valid ++ flagBit st.busy : BitVec 32)

/-- Write FOUND (10_state.md R41). -/
def State.withFound (found : Bool) (s : State) : State :=
  { s with status := { s.status with found := found } }

/-- Write VALID (10_state.md R32). -/
def State.withValid (valid : Bool) (s : State) : State :=
  { s with status := { s.status with valid := valid } }

/-- The end of a command's BUSY (10_state.md R40). -/
def State.withoutBusy (s : State) : State :=
  { s with status := { s.status with busy := false } }

/-- What the completion of a command that did not raise writes (60_exceptions.md R281). -/
def State.completed (s : State) : State :=
  { s with status := { s.status with err := false, ecode := .none, busy := false } }

/-- What a fatal failure writes besides BUSY (60_exceptions.md R275). -/
def State.fatalEntry (code : ECode) (op : Byte) (info : Word) (s : State) : State :=
  { s with
    status := { s.status with fault := true, ecode := code, errop := op, err := false }
    errinfo := info }

/-- What a recoverable failure writes (60_exceptions.md R280). -/
def State.recoverableEntry (code : ECode) (op : Byte) (info : Word) (s : State) : State :=
  { s with
    status := { s.status with err := true, ecode := code, errop := op, busy := false }
    errinfo := info }

end Sys2Proof.Machine
end

