-- ==== Sys2Proof/Machine/Ops.lean ====
section
/-! DEFINITION. The named operations over storage and registers, and the ends of a command: completion, fatal failure
(the one operation that takes the BVU's exception), recoverable failure. -/

namespace Sys2Proof.Machine

/-- What one step answers. -/
abbrev Result := Host.Outcome State Fault Refusal

/-- `nbytes(n) = ceil(n / 8)` (00_scope.md R22). -/
def nbytes (n : Nat) : Nat := (n + 7) / 8

/-- The pseudocode's `for k in lo .. lo + count - 1`, in rising order. -/
def forUp {α : Type} (lo count : Nat) (body : Nat → α → α) (a : α) : α :=
  match count with
  | 0 => a
  | rest + 1 => forUp (lo + 1) rest body (body lo a)

/-! ### Storage -/

/-- `MemRead(k, 1)` (00_scope.md R23). An unlisted byte reads 0x00 (log 4). -/
def Memory.readByte (m : Memory) (k : Nat) : Byte :=
  match m with
  | [] => 0x00#8
  | (a, b) :: rest => if a = k then b else Memory.readByte rest k

/-- Put an entry before the first one of a greater index. -/
def Memory.insert (m : Memory) (k : Nat) (v : Byte) : Memory :=
  match m with
  | [] => [(k, v)]
  | c :: rest => if k < c.1 then (k, v) :: c :: rest else c :: Memory.insert rest k v

/-- `MemWrite(k, 1, v)` (R23), keeping the canonical form: 0x00 is held by listing nothing. -/
def Memory.writeByte (m : Memory) (k : Nat) (v : Byte) : Memory :=
  let others : Memory := m.filter (fun c => c.1 != k)
  if v = 0x00#8 then others else others.insert k v

/-- `MemWrite(k, 1, 0x00)` for every `k` with `lo <= k < hi`: none of them stays listed. -/
def Memory.zeroRange (m : Memory) (lo hi : Nat) : Memory :=
  m.filter (fun c => !(decide (lo ≤ c.1) && decide (c.1 < hi)))

/-- The canonical form: indices strictly rising, no entry equal to what an unlisted byte reads as. -/
abbrev Memory.wf (m : Memory) : Prop :=
  m.Pairwise (fun c d => c.1 < d.1) ∧ ∀ c ∈ m, c.2 ≠ 0x00#8

/-- The byte mask of bit index `i`, `0x80 >> (i mod 8)` (00_scope.md R20). -/
def bitMask (i : Nat) : Byte := 0x80#8 >>> (i % 8)

/-- `Bit(i)` (R23): position `7 - (i mod 8)`, from the least-significant bit, of byte `i div 8`. -/
def Memory.bit (m : Memory) (i : Nat) : Bool := (m.readByte (i / 8)).getLsbD (7 - i % 8)

/-- `WriteBit(i, b)` (R23). -/
def Memory.writeBit (m : Memory) (i : Nat) (b : Bool) : Memory :=
  let k := i / 8
  m.writeByte k (if b then m.readByte k ||| bitMask i else m.readByte k &&& ~~~bitMask i)

/-- The pad positions of byte `k` of an `n`-bit vector (20_memory.md R76). -/
def padMask (n k : Nat) : Byte :=
  if n % 8 ≠ 0 ∧ k = nbytes n - 1 then 0xFF#8 >>> (n % 8) else 0x00#8

/-- `(v & ~pm) | (p & pm)`: the byte `v` with its pad positions taken from `p` (20_memory.md R80, R81). -/
def mergePad (pm v p : Byte) : Byte :=
  if pm = 0x00#8 then v else (v &&& ~~~pm) ||| (p &&& pm)

/-! ### Registers -/

/-- `n`, the current bit count (R23). -/
def State.n (s : State) : Nat := s.bitcount.toNat

/-- `MAX_BITS` (00_scope.md R10). -/
def State.maxBits (s : State) : Nat := s.capacity.toNat

/-- Vector bit `i` (10_state.md R34). -/
def State.bit (s : State) (i : Nat) : Bool := s.storage.bit i

/-- `x[RESULT] <- v`. -/
def State.withResult (v : Word) (s : State) : State := { s with result := v }

/-- Replace the storage. -/
def State.withStorage (m : Memory) (s : State) : State := { s with storage := m }

/-- `x[BITCOUNT] <- c`. -/
def State.withBitcount (c : Word) (s : State) : State := { s with bitcount := c }

/-! ### How a command or a DATA access ends -/

/-- `raise Fatal(code, info)` with `op` (60_exceptions.md R275), the BVU's one exception entry: the block is halted and
the record stands in FAULT, ECODE, ERROP and ERRINFO. The unchecked build refuses instead (R284). There is no return from
it (R282): only reset leaves the halted condition. -/
def raiseFatal (code : ECode) (op : Byte) (info : Word) (s : State) : Result :=
  match s.checks with
  | .checked => .next (s.fatalEntry code op info)
  | .unchecked => .refused .uncheckedBuild

/-- `raise Fatal(code, info)` from a command: `op = w[7:0]`, and BUSY ends (R275). -/
def commandFatal (i : Instr) (code : ECode) (info : Word) (s : State) : Result :=
  raiseFatal code (opcode i) info s.withoutBusy

/-- `raise Recoverable(code, info)` from a command (R280). -/
def commandRecoverable (i : Instr) (code : ECode) (info : Word) (s : State) : Result :=
  .next (s.recoverableEntry code (opcode i) info)

/-- The completion of a command whose body did not raise (R281). -/
def complete (s : State) : Result := .next s.completed

end Sys2Proof.Machine
end

