-- ==== Sys2Proof/Machine/Operands.lean ====
section
/-! DEFINITION. Which operands a command reads, and the checks the commands share, in the order of 60_exceptions.md R278.
Each check either ends the command with its failure or goes on with `k`. -/

namespace Sys2Proof.Machine

/-- The commands that read ARG0 (30_encoding.md R116). -/
def readsArg0 : Instr → Bool
  | .create | .resize => true
  | .get | .set | .clear | .toggle => true
  | .setRegion | .clearRegion | .toggleRegion => true
  | .findNextClear | .findNextSet | .findPrevClear | .findPrevSet => true
  | .nop | .destroy | .setAll | .clearAll | .toggleAll | .countSet | .countClear => false
  | .firstClear | .firstSet | .lastClear | .lastSet => false

/-- The commands that read ARG1 (R116). -/
def readsArg1 : Instr → Bool
  | .setRegion | .clearRegion | .toggleRegion => true
  | .nop | .create | .resize | .destroy | .get | .set | .clear | .toggle => false
  | .setAll | .clearAll | .toggleAll | .countSet | .countClear => false
  | .findNextClear | .findNextSet | .findPrevClear | .findPrevSet => false
  | .firstClear | .firstSet | .lastClear | .lastSet => false

/-- The prologue's second check: every command but NOP and CREATE needs a vector (R278, R274). -/
def checkInstance (i : Instr) (s : State) (k : Result) : Result :=
  if s.status.valid then k else commandFatal i .noInstance 0#32 s

/-- The range check of an index operand (41_bit_ops.md R170, 42_region_ops.md R193, 44_search.md R240). -/
def checkIndex (i : Instr) (x : Word) (s : State) (k : Result) : Result :=
  if x.toNat < s.n then k else commandFatal i .indexOutOfRange x s

/-- The check of a command that runs over the whole vector (42_region_ops.md R200, 44_search.md R250). -/
def checkNonempty (i : Instr) (s : State) (k : Result) : Result :=
  if s.n = 0 then commandFatal i .indexOutOfRange 0#32 s else k

/-- The capacity check of CREATE and RESIZE (40_storage_core.md R152, R156). -/
def checkCapacity (i : Instr) (c : Word) (s : State) (k : Result) : Result :=
  if s.maxBits < c.toNat then commandRecoverable i .allocationFailure c s else k

/-- The in-use bytes exist: `nbytes(n)` is at most the storage's `nbytes(MAX_BITS)` (10_state.md R34). It follows from
the invariant of R33 (log 11). -/
def State.storageFits (s : State) : Bool := nbytes s.n ≤ nbytes s.maxBits

/-- An access to storage bytes past the last one stops the machine. -/
def checkStorage (s : State) (k : Result) : Result :=
  if s.storageFits then k else .fault .storageHole

end Sys2Proof.Machine
end

