-- ==== Sys2Proof/Machine/BitOps.lean ====
section
/-! DEFINITION. Class 1: GET, SET, CLEAR, TOGGLE (41_bit_ops.md). -/

namespace Sys2Proof.Machine

/-- A bit as a register value, zero-extended. -/
def zextBit (b : Bool) : Word := if b then 1#32 else 0#32

/-- The checks of the four single-bit commands (R170), then `body` on the index. -/
def bitCommand (i : Instr) (s : State) (body : Nat → State) : Result :=
  checkInstance i s <| checkIndex i s.arg0 s <| checkStorage s <| complete (body s.arg0.toNat)

/-- GET (R171). -/
def execGet (s : State) : Result :=
  bitCommand .get s fun i => s.withResult (zextBit (s.storage.bit i))

/-- SET (R172). -/
def execSet (s : State) : Result :=
  bitCommand .set s fun i => s.withStorage (s.storage.writeBit i true)

/-- CLEAR (R173). -/
def execClear (s : State) : Result :=
  bitCommand .clear s fun i => s.withStorage (s.storage.writeBit i false)

/-- TOGGLE (R174). -/
def execToggle (s : State) : Result :=
  bitCommand .toggle s fun i => s.withStorage (s.storage.writeBit i (!s.storage.bit i))

end Sys2Proof.Machine
end

