-- ==== Sys2Proof/Machine/Popcount.lean ====
section
/-! DEFINITION. Class 4: the popcount table and the two counts over it (43_popcount.md). -/

namespace Sys2Proof.Machine

/-- Rows 0_ to 7_ of the table of R221, a row per high nibble of the byte. -/
def lutLow : List (BitVec 4) :=
  [0, 1, 1, 2, 1, 2, 2, 3, 1, 2, 2, 3, 2, 3, 3, 4] ++
  [1, 2, 2, 3, 2, 3, 3, 4, 2, 3, 3, 4, 3, 4, 4, 5] ++
  [1, 2, 2, 3, 2, 3, 3, 4, 2, 3, 3, 4, 3, 4, 4, 5] ++
  [2, 3, 3, 4, 3, 4, 4, 5, 3, 4, 4, 5, 4, 5, 5, 6] ++
  [1, 2, 2, 3, 2, 3, 3, 4, 2, 3, 3, 4, 3, 4, 4, 5] ++
  [2, 3, 3, 4, 3, 4, 4, 5, 3, 4, 4, 5, 4, 5, 5, 6] ++
  [2, 3, 3, 4, 3, 4, 4, 5, 3, 4, 4, 5, 4, 5, 5, 6] ++
  [3, 4, 4, 5, 4, 5, 5, 6, 4, 5, 5, 6, 5, 6, 6, 7]

/-- Rows 8_ to F_ of the table of R221. -/
def lutHigh : List (BitVec 4) :=
  [1, 2, 2, 3, 2, 3, 3, 4, 2, 3, 3, 4, 3, 4, 4, 5] ++
  [2, 3, 3, 4, 3, 4, 4, 5, 3, 4, 4, 5, 4, 5, 5, 6] ++
  [2, 3, 3, 4, 3, 4, 4, 5, 3, 4, 4, 5, 4, 5, 5, 6] ++
  [3, 4, 4, 5, 4, 5, 5, 6, 4, 5, 5, 6, 5, 6, 6, 7] ++
  [2, 3, 3, 4, 3, 4, 4, 5, 3, 4, 4, 5, 4, 5, 5, 6] ++
  [3, 4, 4, 5, 4, 5, 5, 6, 4, 5, 5, 6, 5, 6, 6, 7] ++
  [3, 4, 4, 5, 4, 5, 5, 6, 4, 5, 5, 6, 5, 6, 6, 7] ++
  [4, 5, 5, 6, 5, 6, 6, 7, 5, 6, 6, 7, 6, 7, 7, 8]

/-- `LUT[b]` (10_state.md R35, R220): the read-only table of 4-bit entries. -/
def lut (b : Byte) : BitVec 4 := (lutLow ++ lutHigh).getD b.toNat 0#4

/-- `CountSet()` (R222): the table over the full bytes, then bit by bit over the rest. -/
def countSet (n : Nat) (m : Memory) : Nat :=
  let full := n / 8
  let bytes := forUp 0 full (fun k c => c + (lut (m.readByte k)).toNat) 0
  forUp (8 * full) (n - 8 * full) (fun i c => c + (m.bit i).toNat) bytes

/-- COUNT_SET (R224). -/
def execCountSet (s : State) : Result :=
  checkInstance .countSet s <| checkStorage s <|
    complete (s.withResult (BitVec.ofNat 32 (countSet s.n s.storage)))

/-- COUNT_CLEAR (R225). -/
def execCountClear (s : State) : Result :=
  checkInstance .countClear s <| checkStorage s <|
    complete (s.withResult (BitVec.ofNat 32 (s.n - countSet s.n s.storage)))

end Sys2Proof.Machine
end

