-- ==== Sys2Proof/Machine/Region.lean ====
section
/-! DEFINITION. Classes 2 and 3: the region operator in its byte form and the six commands over it (42_region_ops.md). -/

namespace Sys2Proof.Machine

/-- The tagged operation of the region algorithm (00_scope.md R24). -/
inductive RegionKind where
  | set
  | clear
  | toggle
  deriving DecidableEq, Repr

/-- `apply(op, b, m)` (R24). -/
def RegionKind.apply (op : RegionKind) (b m : Byte) : Byte :=
  match op with
  | .set => b ||| m
  | .clear => b &&& ~~~m
  | .toggle => b ^^^ m

/-- `fill(op, b)` on a body byte (R191). -/
def RegionKind.fill (op : RegionKind) (b : Byte) : Byte :=
  match op with
  | .set => 0xFF#8
  | .clear => 0x00#8
  | .toggle => b ^^^ 0xFF#8

/-- The new value of one bit of the region (R192). -/
def RegionKind.onBit (op : RegionKind) (b : Bool) : Bool :=
  match op with
  | .set => true
  | .clear => false
  | .toggle => !b

/-- The head mask: positions `lo mod 8` to 7 (R191). -/
def headMask (lo : Nat) : Byte := 0xFF#8 >>> (lo % 8)

/-- The tail mask: positions 0 to `hi mod 8` (R191). -/
def tailMask (hi : Nat) : Byte := 0xFF#8 <<< (7 - hi % 8)

/-- One masked byte of the region. -/
def regionByte (op : RegionKind) (k : Nat) (mask : Byte) (m : Memory) : Memory :=
  m.writeByte k (op.apply (m.readByte k) mask)

/-- The whole bytes strictly between head and tail (R191). -/
def regionBody (op : RegionKind) (hb tb : Nat) (m : Memory) : Memory :=
  forUp (hb + 1) (tb - (hb + 1)) (fun k m => m.writeByte k (op.fill (m.readByte k))) m

/-- `RegionOp(op, lo, hi)` for `lo <= hi` (R191). -/
def regionOp (op : RegionKind) (lo hi : Nat) (m : Memory) : Memory :=
  if lo / 8 = hi / 8 then regionByte op (lo / 8) (headMask lo &&& tailMask hi) m
  else regionByte op (hi / 8) (tailMask hi)
    (regionBody op (lo / 8) (hi / 8) (regionByte op (lo / 8) (headMask lo) m))

/-- The three class-2 commands: ARG0 is checked before ARG1, then the ends are put in order (R193). -/
def regionCommand (i : Instr) (op : RegionKind) (s : State) : Result :=
  checkInstance i s <| checkIndex i s.arg0 s <| checkIndex i s.arg1 s <| checkStorage s <|
    complete (s.withStorage
      (regionOp op (min s.arg0.toNat s.arg1.toNat) (max s.arg0.toNat s.arg1.toNat) s.storage))

/-- The three class-3 commands (R200). -/
def wholeCommand (i : Instr) (op : RegionKind) (s : State) : Result :=
  checkInstance i s <| checkNonempty i s <| checkStorage s <|
    complete (s.withStorage (regionOp op 0 (s.n - 1) s.storage))

/-- SET_REGION (R195). -/
def execSetRegion (s : State) : Result := regionCommand .setRegion .set s

/-- CLEAR_REGION (R196). -/
def execClearRegion (s : State) : Result := regionCommand .clearRegion .clear s

/-- TOGGLE_REGION (R197). -/
def execToggleRegion (s : State) : Result := regionCommand .toggleRegion .toggle s

/-- SET_ALL (R201). -/
def execSetAll (s : State) : Result := wholeCommand .setAll .set s

/-- CLEAR_ALL (R202). -/
def execClearAll (s : State) : Result := wholeCommand .clearAll .clear s

/-- TOGGLE_ALL (R203). -/
def execToggleAll (s : State) : Result := wholeCommand .toggleAll .toggle s

end Sys2Proof.Machine
end

