-- ==== Sys2Proof/Machine/Search.lean ====
section
/-! DEFINITION. Class 5: the bit-search engine in its byte form and the eight commands over it (44_search.md). -/

namespace Sys2Proof.Machine

/-- `clz8(b)`: the 0 bits above the highest 1 bit of a non-zero byte (R244). -/
def clz8 (b : Byte) : Nat := ((List.range 8).takeWhile (fun j => !b.getMsbD j)).length

/-- `ctz8(b)`: the 0 bits below the lowest 1 bit of a non-zero byte (R244). -/
def ctz8 (b : Byte) : Nat := ((List.range 8).takeWhile (fun j => !b.getLsbD j)).length

/-- The byte read for target `t`: a set bit marks a match (R244). -/
def matchByte (t : Bool) (b : Byte) : Byte := if t then b else ~~~b

/-- The mask of byte `k` of the forward scan from `f` over `n` bits: the start mask and the end mask (R244). -/
def forwardMask (n f k : Nat) : Byte :=
  (if k = f / 8 then 0xFF#8 >>> (f % 8) else 0xFF#8) &&&
    (if k = nbytes n - 1 then ~~~padMask n k else 0xFF#8)

/-- The mask of byte `k` of the backward scan from `f` (R244). -/
def backwardMask (f k : Nat) : Byte :=
  if k = f / 8 then 0xFF#8 <<< (7 - f % 8) else 0xFF#8

/-- The forward scan over `count` bytes from byte `k` (R244): a byte with no candidate is skipped whole. -/
def scanForward (t : Bool) (n f : Nat) (m : Memory) (k count : Nat) : Option Nat :=
  match count with
  | 0 => none
  | rest + 1 =>
    let b := matchByte t (m.readByte k) &&& forwardMask n f k
    if b = 0x00#8 then scanForward t n f m (k + 1) rest else some (8 * k + clz8 b)

/-- The backward scan over the bytes `count - 1` down to 0 (R244). -/
def scanBackward (t : Bool) (f : Nat) (m : Memory) (count : Nat) : Option Nat :=
  match count with
  | 0 => none
  | k + 1 =>
    let b := matchByte t (m.readByte k) &&& backwardMask f k
    if b = 0x00#8 then scanBackward t f m k else some (8 * k + 7 - ctz8 b)

/-- `FindNext(t, f)` for `f < n` (R240 in the form of R244): bytes `f div 8` to `nbytes(n) - 1`. -/
def findNext (t : Bool) (n f : Nat) (m : Memory) : Option Nat :=
  scanForward t n f m (f / 8) (nbytes n - f / 8)

/-- `FindPrev(t, f)` for `f < n` (R241 in the form of R244): bytes `f div 8` down to 0. -/
def findPrev (t : Bool) (f : Nat) (m : Memory) : Option Nat :=
  scanBackward t f m (f / 8 + 1)

/-- FOUND and RESULT of a search (R240, R241); not found writes 0xFFFF_FFFF (R243). -/
def State.withSearch (found : Option Nat) (s : State) : State :=
  match found with
  | some i => (s.withFound true).withResult (BitVec.ofNat 32 i)
  | none => (s.withFound false).withResult 0xFFFFFFFF#32

/-- The four commands with a start index (R240, R241). -/
def findCommand (i : Instr) (s : State) (search : Nat → Option Nat) : Result :=
  checkInstance i s <| checkIndex i s.arg0 s <| checkStorage s <|
    complete (s.withSearch (search s.arg0.toNat))

/-- The four anchored commands (R250): they do not read ARG0. -/
def anchoredCommand (i : Instr) (s : State) (search : Option Nat) : Result :=
  checkInstance i s <| checkNonempty i s <| checkStorage s <| complete (s.withSearch search)

/-- FIND_NEXT_CLEAR (R245). -/
def execFindNextClear (s : State) : Result :=
  findCommand .findNextClear s fun f => findNext false s.n f s.storage

/-- FIND_NEXT_SET (R246). -/
def execFindNextSet (s : State) : Result :=
  findCommand .findNextSet s fun f => findNext true s.n f s.storage

/-- FIND_PREV_CLEAR (R248). -/
def execFindPrevClear (s : State) : Result :=
  findCommand .findPrevClear s fun f => findPrev false f s.storage

/-- FIND_PREV_SET (R249). -/
def execFindPrevSet (s : State) : Result :=
  findCommand .findPrevSet s fun f => findPrev true f s.storage

/-- FIRST_CLEAR (R251). -/
def execFirstClear (s : State) : Result :=
  anchoredCommand .firstClear s (findNext false s.n 0 s.storage)

/-- FIRST_SET (R252). -/
def execFirstSet (s : State) : Result :=
  anchoredCommand .firstSet s (findNext true s.n 0 s.storage)

/-- LAST_CLEAR (R254). -/
def execLastClear (s : State) : Result :=
  anchoredCommand .lastClear s (findPrev false (s.n - 1) s.storage)

/-- LAST_SET (R255). -/
def execLastSet (s : State) : Result :=
  anchoredCommand .lastSet s (findPrev true (s.n - 1) s.storage)

end Sys2Proof.Machine
end

