-- ==== Sys2Proof/Machine/StorageCore.lean ====
section
/-! DEFINITION. Class 0: NOP, CREATE, RESIZE, DESTROY (40_storage_core.md). -/

namespace Sys2Proof.Machine

/-- `for k in 0 .. nbytes(c) - 1: MemWrite(k, 1, 0x00)` (R152); the loop itself gives the same storage
(`zeroFill_eq_loop`). -/
def zeroFill (c : Nat) (m : Memory) : Memory := m.zeroRange 0 (nbytes c)

/-- `for i in old .. c - 1: WriteBit(i, 0)`, empty when `c <= old` (R156). -/
def clearGrowth (old c : Nat) (m : Memory) : Memory :=
  forUp old (c - old) (fun i m => m.writeBit i false) m

/-- NOP (R150): no effect but the completion; it runs without a vector. -/
def execNop (s : State) : Result := complete s

/-- CREATE (R152): replaces whatever vector exists. -/
def execCreate (s : State) : Result :=
  checkCapacity .create s.arg0 s <|
    complete (((s.withStorage (zeroFill s.arg0.toNat s.storage)).withBitcount s.arg0).withValid true)

/-- RESIZE (R156). -/
def execResize (s : State) : Result :=
  checkInstance .resize s <| checkCapacity .resize s.arg0 s <|
    complete ((s.withStorage (clearGrowth s.n s.arg0.toNat s.storage)).withBitcount s.arg0)

/-- DESTROY (R160). -/
def execDestroy (s : State) : Result :=
  checkInstance .destroy s <| complete ((s.withValid false).withBitcount 0#32)

end Sys2Proof.Machine
end

