-- ==== Sys2Proof/Machine/Dispatch.lean ====
section
/-! DEFINITION. The dispatch: one arm per command, each one call of its meaning. -/

namespace Sys2Proof.Machine

def exec (i : Instr) (s : State) : Host.Outcome State Fault Refusal :=
  match i with
  | .nop => Sys2Proof.Machine.execNop s
  | .create => Sys2Proof.Machine.execCreate s
  | .resize => Sys2Proof.Machine.execResize s
  | .destroy => Sys2Proof.Machine.execDestroy s
  | .get => Sys2Proof.Machine.execGet s
  | .set => Sys2Proof.Machine.execSet s
  | .clear => Sys2Proof.Machine.execClear s
  | .toggle => Sys2Proof.Machine.execToggle s
  | .setRegion => Sys2Proof.Machine.execSetRegion s
  | .clearRegion => Sys2Proof.Machine.execClearRegion s
  | .toggleRegion => Sys2Proof.Machine.execToggleRegion s
  | .setAll => Sys2Proof.Machine.execSetAll s
  | .clearAll => Sys2Proof.Machine.execClearAll s
  | .toggleAll => Sys2Proof.Machine.execToggleAll s
  | .countSet => Sys2Proof.Machine.execCountSet s
  | .countClear => Sys2Proof.Machine.execCountClear s
  | .findNextClear => Sys2Proof.Machine.execFindNextClear s
  | .findNextSet => Sys2Proof.Machine.execFindNextSet s
  | .findPrevClear => Sys2Proof.Machine.execFindPrevClear s
  | .findPrevSet => Sys2Proof.Machine.execFindPrevSet s
  | .firstClear => Sys2Proof.Machine.execFirstClear s
  | .firstSet => Sys2Proof.Machine.execFirstSet s
  | .lastClear => Sys2Proof.Machine.execLastClear s
  | .lastSet => Sys2Proof.Machine.execLastSet s

end Sys2Proof.Machine
end

