-- ==== Sys2Proof/Machine/Engine.lean ====
section
/-! DEFINITION. The engine's step on the pending command (60_exceptions.md R278). -/

namespace Sys2Proof.Machine

/-- The prologue's first check on the pending word `w = x[CMD]`, then the command (R278, R273): an illegal word raises
ILLEGAL_COMMAND with ERROP = `w[7:0]` and ERRINFO = `w` before any other check. -/
def engineStep (s : State) : Result :=
  match decode s.cmd with
  | .ok i => exec i s
  | .error _ => raiseFatal .illegalCommand (opcodeByte s.cmd) s.cmd s.withoutBusy

end Sys2Proof.Machine
end

