-- ==== Sys2Proof/Machine/Port.lean ====
section
/-! DEFINITION. The register port: what an access does once it is not held, and the reset input (10_state.md R37 to R47,
20_memory.md R70 to R92, 70_reset_and_hazards.md R310). -/

namespace Sys2Proof.Machine

/-- The value of a register other than DATA as the host reads it (10_state.md R37); DATA has none of its own. -/
def regValue (r : Reg) (s : State) : Word :=
  match r with
  | .cmd => s.cmd
  | .arg0 => s.arg0
  | .arg1 => s.arg1
  | .status => s.status.word
  | .result => s.result
  | .bitcount => s.bitcount
  | .capacity => s.capacity
  | .daddr => s.daddr
  | .data => 0#32
  | .errinfo => s.errinfo
  | .id => Config.idValue

/-- The host read returns `v`. -/
def State.returning (v : Word) (s : State) : State := { s with reads := s.reads ++ [v] }

/-- One `draw_8()` is used up (00_scope.md R23). -/
def State.drawn (s : State) : State := { s with draws := s.draws + 1 }

/-- `x[DADDR] <- (k + 1) mod 2^32` (10_state.md R44). -/
def State.daddrNext (s : State) : State := { s with daddr := s.daddr + 1#32 }

/-- ERROP of a faulting DATA read (60_exceptions.md R272). -/
def dataReadOp : Byte := 0xF0#8

/-- ERROP of a faulting DATA write (R272). -/
def dataWriteOp : Byte := 0xF1#8

/-- A read of DATA, once not held (20_memory.md R80, R92). The draw is the byte returned where the access is halted or
faults, and the pad positions where it succeeds. -/
def dataRead (s : State) : Result :=
  let d := Config.freeByte s.draws
  let k := s.daddr.toNat
  if s.status.fault then .next (s.drawn.returning (d.setWidth 32))
  else if !s.status.valid then raiseFatal .noInstance dataReadOp s.daddr (s.drawn.returning (d.setWidth 32))
  else if nbytes s.n ≤ k then raiseFatal .indexOutOfRange dataReadOp s.daddr (s.drawn.returning (d.setWidth 32))
  else checkStorage s <|
    .next (s.drawn.daddrNext.returning ((mergePad (padMask s.n k) (s.storage.readByte k) d).setWidth 32))

/-- A write of `w` to DATA, once not held (20_memory.md R81, R92): bits 31:8 are dropped, pad positions are not written. -/
def dataWrite (w : Word) (s : State) : Result :=
  let k := s.daddr.toNat
  if s.status.fault then .next s
  else if !s.status.valid then raiseFatal .noInstance dataWriteOp s.daddr s
  else if nbytes s.n ≤ k then raiseFatal .indexOutOfRange dataWriteOp s.daddr s
  else checkStorage s <|
    .next (s.withStorage (s.storage.writeByte k
      (mergePad (padMask s.n k) (w.setWidth 8) (s.storage.readByte k)))).daddrNext

/-- A legal read at a port offset: an unmapped one returns 0 (20_memory.md R73). -/
def portRead (off : PortOffset) (s : State) : Result :=
  match Reg.ofOffset off with
  | none => .next (s.returning 0#32)
  | some .data => dataRead s
  | some r => .next (s.returning (regValue r s))

/-- A write to CMD when the block is not halted: the command is latched and pending (20_memory.md R84). The engine's time
is a fresh free value (log 7). -/
def issue (w : Word) (s : State) : State :=
  { s with
    cmd := w
    status := { s.status with busy := true }
    delay := Config.engineDelay s.issued
    issued := s.issued + 1 }

/-- A write to a register of a block that is not halted (10_state.md R37, R47). -/
def regWrite (r : Reg) (v : Word) (s : State) : Result :=
  match r with
  | .cmd => .next (issue v s)
  | .arg0 => .next { s with arg0 := v }
  | .arg1 => .next { s with arg1 := v }
  | .daddr => .next { s with daddr := v }
  | .data => dataWrite v s
  | .status | .result | .bitcount | .capacity | .errinfo | .id => .next s

/-- A legal write at a port offset: a halted block ignores it (20_memory.md R92), an unmapped offset too (R73). -/
def portWrite (off : PortOffset) (v : Word) (s : State) : Result :=
  if s.status.fault then .next s
  else
    match Reg.ofOffset off with
    | none => .next s
    | some r => regWrite r v s

/-- Reset (70_reset_and_hazards.md R310): every state element takes its reset value (10_state.md R49) and the pending
command is discarded. The parameters and the model's own record of the outside world stay (log 13). -/
def State.afterReset (s : State) : State :=
  { State.resetOf s.capacity s.checks with
    inputs := s.inputs
    reads := s.reads
    issued := s.issued
    draws := s.draws }

/-- An input that comes while a command is pending uses up one of the inputs the engine's delay lets pass (log 7). -/
def State.waited (s : State) : State :=
  { s with delay := if s.status.busy then s.delay - 1 else s.delay }

/-- One STATUS read of POLL (30_encoding.md R130): while it shows BUSY = 1 the POLL `again` is still to come. -/
def pollOnce (rest again : List Input) (s : State) : State :=
  { s.returning s.status.word with inputs := if s.status.busy then again else rest }

/-- An input takes effect; `rest` are the inputs after it. An access the interface gives no meaning is refused
(20_memory.md R71). -/
def takeInput (i : Input) (rest : List Input) (s : State) : Result :=
  match i with
  | .read width off =>
    if accessLegal width off then portRead off { s.waited with inputs := rest } else .refused .portAccess
  | .write width off v =>
    if accessLegal width off then portWrite off v { s.waited with inputs := rest } else .refused .portAccess
  | .poll => .next (pollOnce rest (.poll :: rest) s.waited)
  | .reset => .next { s.afterReset with inputs := rest }

end Sys2Proof.Machine
end

