-- ==== Sys2Proof/Machine/Schedule.lean ====
section
/-! DEFINITION. Which agent moves next (20_memory.md R85 to R87). -/

namespace Sys2Proof.Machine

/-- The next move of the block. -/
inductive Move where
  | engine
  | input (i : Input) (rest : List Input)
  | idle
  deriving DecidableEq, Repr

/-- With a command pending the engine moves, unless an input that is not held comes first: a held access waits for the
engine (R85), and how many unheld inputs come before it is the free value in `delay` (R87, log 7). With no command pending
the inputs are taken in order (R86). -/
def nextMove (s : State) : Move :=
  match s.inputs with
  | [] => if s.status.busy then .engine else .idle
  | i :: rest => if s.status.busy && (i.held || s.delay == 0) then .engine else .input i rest

/-- `w` is the pending command and the engine moves next. -/
def fetchPending (w : Word) (s : State) : State :=
  { s with cmd := w, status := { s.status with busy := true }, delay := 0 }

end Sys2Proof.Machine
end

