-- ==== Sys2Proof/Machine/Step.lean ====
section
/-! DEFINITION. One step of the block: the engine's step on the pending command, or one input (10_state.md R30,
20_memory.md R84 to R87). -/

namespace Sys2Proof.Machine

/-- One step. With nothing pending and nothing to come the block is idle (60_exceptions.md R291): nothing changes. -/
def step (s : State) : Host.Outcome State Fault Refusal :=
  match nextMove s with
  | .engine => engineStep s
  | .input i rest => takeInput i rest s
  | .idle => .next s

/-- The state with a command word pending, as a host write to CMD leaves it (20_memory.md R84), and the engine to move
next: the BVU fetches nothing (10_state.md R36), it executes the word in CMD (log 9). -/
def State.withFetchWord (s : State) (nbits w : Nat) : State := fetchPending (tableWord nbits w) s

end Sys2Proof.Machine
end

