-- ==== Sys2Proof/Safety.lean ====
section
/-! DEFINITION. The terms claims are stated in: the ends of a command as whole records, the invariant of the block, and the
equality of two states up to what the host can never see. -/

namespace Sys2Proof.Machine

/-! ### The ends of a command, as records of the spec's own assignments -/

/-- The state a fatal failure leaves (60_exceptions.md R275): nothing else changes. -/
def State.haltedBy (code : ECode) (op : Byte) (info : Word) (s : State) : State :=
  { s with
    status := { s.status with fault := true, ecode := code, errop := op, err := false, busy := false }
    errinfo := info }

/-- The state a recoverable failure leaves (60_exceptions.md R280): nothing else changes. -/
def State.reportedBy (code : ECode) (op : Byte) (info : Word) (s : State) : State :=
  { s with
    status := { s.status with err := true, ecode := code, errop := op, busy := false }
    errinfo := info }

/-- The state with a command's success recorded (60_exceptions.md R281): nothing else changes. -/
def State.succeeded (s : State) : State :=
  { s with status := { s.status with err := false, ecode := .none, busy := false } }

/-! ### The invariant -/

/-- What every state the block can be in satisfies. -/
structure State.Inv (s : State) : Prop where
  /-- The storage is in its canonical form. -/
  canonical : s.storage.wf
  /-- Only bytes of the storage are listed: indices below `nbytes(MAX_BITS)` (10_state.md R34). -/
  inside : ∀ c ∈ s.storage, c.1 < nbytes s.maxBits
  /-- `n <= MAX_BITS` (R33). -/
  fits : s.n ≤ s.maxBits
  /-- `n = 0` whenever VALID = 0 (R33). -/
  empty : s.status.valid = false → s.n = 0
  /-- A halted block has no command pending (20_memory.md R92). -/
  idleHalt : s.status.fault = true → s.status.busy = false
  /-- FAULT is set exactly when ECODE is of the fatal tier (60_exceptions.md R271, R275). -/
  faultCode : s.status.fault = s.status.ecode.fatal
  /-- ERR is set exactly when ECODE is of the recoverable tier (R271, R280). -/
  errCode : s.status.err = decide (s.status.ecode = .allocationFailure)

/-! ### Whose turn it is -/

/-- A command is pending and the engine moves next: no input is to come, or the engine's delay has run out, or the next
input is held (20_memory.md R84, R85, R87). -/
def engineTurn (s : State) : Prop :=
  s.status.busy = true ∧ (s.inputs = [] ∨ s.delay = 0 ∨ ∃ x rest, s.inputs = x :: rest ∧ x.held = true)

/-! ### What the host can never see -/

/-- Two states that differ at most in pad positions and in bytes past the vector (10_state.md R34, R48). -/
def sameVector (s t : State) : Prop :=
  t = { s with storage := t.storage } ∧ ∀ i < s.n, s.bit i = t.bit i

/-- Two results of one kind: next states related by `R`, or the same fault, or the same refusal. -/
def relResult (R : State → State → Prop) (p q : Result) : Prop :=
  match p, q with
  | .next s, .next t => R s t
  | .fault a, .fault b => a = b
  | .refused a, .refused b => a = b
  | _, _ => False

/-- Two results that agree up to that difference. -/
def sameResult (p q : Result) : Prop := relResult sameVector p q

/-! ### Groups of commands -/

/-- The eight commands that write FOUND (10_state.md R41). -/
def findCommands : List Instr :=
  [.findNextClear, .findNextSet, .findPrevClear, .findPrevSet, .firstClear, .firstSet, .lastClear, .lastSet]

/-- The commands that write RESULT (10_state.md R42). -/
def resultCommands : List Instr := [.get, .countSet, .countClear] ++ findCommands

/-- The commands that store to the storage. -/
def storingCommands : List Instr :=
  [.create, .resize, .set, .clear, .toggle, .setRegion, .clearRegion, .toggleRegion, .setAll, .clearAll, .toggleAll]

/-- Byte `k` is one a storing command may store to, from its operands: CREATE `0 .. nbytes(c) - 1`, RESIZE the bytes of
the bits `n .. c - 1`, the single-bit commands byte `i div 8`, the region commands head to tail byte, the whole-vector
commands every in-use byte (R152, R156, R172 to R174, R191, R200). -/
def storesByte (i : Instr) (s : State) (k : Nat) : Prop :=
  match i with
  | .create => k < nbytes s.arg0.toNat
  | .resize => s.n / 8 ≤ k ∧ k < nbytes s.arg0.toNat
  | .set | .clear | .toggle => k = s.arg0.toNat / 8
  | .setRegion | .clearRegion | .toggleRegion =>
    min s.arg0.toNat s.arg1.toNat / 8 ≤ k ∧ k ≤ max s.arg0.toNat s.arg1.toNat / 8
  | .setAll | .clearAll | .toggleAll => k < nbytes s.n
  | .nop | .destroy | .get | .countSet | .countClear => False
  | .findNextClear | .findNextSet | .findPrevClear | .findPrevSet => False
  | .firstClear | .firstSet | .lastClear | .lastSet => False

end Sys2Proof.Machine
end

