-- ==== Sys2Proof/Certificates/Slice0/Obligations.lean ====
section
/-! DEFINITION. The statements about the BVU, in the terms of Safety.lean. Every statement about `exec` or `step` holds for
every state that meets its hypotheses, reachable or not. -/

open Sys2Proof Sys2Proof.Machine

/-! ### Encoding -/

/-- One word of each class, written out from the fields of R111, and three illegal ones. -/
def Obligations.DecodesWrittenWords : Prop :=
  decode 0b00000000000000000000000000000001#32 = .ok .create ∧
  decode 0b00000000000000000000000000010011#32 = .ok .toggle ∧
  decode 0b00000000000000000000000000100010#32 = .ok .clearRegion ∧
  decode 0b00000000000000000000000000110001#32 = .ok .setAll ∧
  decode 0b00000000000000000000000001000001#32 = .ok .countClear ∧
  decode 0b00000000000000000000000001010110#32 = .ok .lastClear ∧
  decode 0b00000000000000000000000100010001#32 = .error .reservedBits ∧
  decode 0b00000000000000000000000001100000#32 = .error .reservedClass ∧
  decode 0b00000000000000000000000000100000#32 = .error .reservedFunc

/-- R118, R119: a word decodes to a command exactly when it is that command's word of the opcode map. -/
def Obligations.DecodeInvertsEncode : Prop :=
  ∀ (w : Word) (i : Instr), decode w = .ok i ↔ w = encode i

/-- R120: which words are illegal, by RESV, CLASS and FUNC. -/
def Obligations.IllegalWordsAreTheReservedOnes : Prop :=
  ∀ w : Word, (∃ e, decode w = .error e) ↔
    (w.extractLsb' 8 24 ≠ 0#24 ∨
      6 ≤ (w.extractLsb' 4 4).toNat ∨
      ((w.extractLsb' 4 4).toNat = 0 ∧ 4 ≤ (w.extractLsb' 0 4).toNat) ∨
      ((w.extractLsb' 4 4).toNat = 1 ∧ 4 ≤ (w.extractLsb' 0 4).toNat) ∨
      (((w.extractLsb' 4 4).toNat = 2 ∨ (w.extractLsb' 4 4).toNat = 3) ∧
        ((w.extractLsb' 0 4).toNat = 0 ∨ 4 ≤ (w.extractLsb' 0 4).toNat)) ∨
      ((w.extractLsb' 4 4).toNat = 4 ∧ 2 ≤ (w.extractLsb' 0 4).toNat) ∨
      ((w.extractLsb' 4 4).toNat = 5 ∧ 8 ≤ (w.extractLsb' 0 4).toNat))

/-! ### The step -/

/-- R84, R278: the engine's step on a pending legal word is the command's meaning, nothing added; when the engine moves is
the model's schedule (log 7). The second clause, that a word placed by `withFetchWord` is run by the very next step, is no
rule of the spec: `withFetchWord` is the model's own hook (DESIGN CHOICE, log 9). -/
def Obligations.StepRunsPendingCommand : Prop :=
  (∀ (s : State) (i : Instr), engineTurn s → decode s.cmd = .ok i → step s = exec i s) ∧
  (∀ (s : State) (nbits w : Nat) (i : Instr), decodeTableWord nbits w = some i →
    step (s.withFetchWord nbits w) = exec i (s.withFetchWord nbits w))

/-- R273: an illegal pending word, executed, halts the block with ILLEGAL_COMMAND, ERROP = CMD[7:0] and ERRINFO = CMD,
whether a vector exists or not, and has no other effect. -/
def Obligations.IllegalCommandHalts : Prop :=
  ∀ s : State, s.checks = .checked → engineTurn s → (∀ i, s.cmd ≠ encode i) →
    step s = .next (s.haltedBy .illegalCommand (s.cmd.extractLsb' 0 8) s.cmd)

/-- R311: with nothing pending and nothing to come the block executes nothing. -/
def Obligations.IdleBlockDoesNothing : Prop :=
  ∀ s : State, s.status.busy = false → s.inputs = [] → step s = .next s

/-- R330 with the model's delay (log 7): a pending command comes to its execution after finitely many unheld inputs, all
of which leave every register but the record of reads alone. -/
def Obligations.PendingCommandIsExecuted : Prop :=
  ∀ s : State, s.status.busy = true → (∀ x ∈ s.inputs, x ≠ Input.reset) →
    ∃ k, k ≤ s.delay ∧ ∃ t : State, Sys2Proof.core.run k s = .next t ∧ engineTurn t ∧
      t = { s with inputs := t.inputs, reads := t.reads, delay := t.delay }

/-- R310: reset discards the pending command and gives every register its reset value, in a halted block too. Clauses that
are the model's choice and no rule of the spec: the storage lists nothing afterwards (logs 4 and 5; R34 and R49 leave its
contents unspecified); a reset that is the next input takes effect while a command is pending exactly if the free delay has
not run out, and otherwise the engine moves first and the reset is still to come (log 7); the parameters and the record of
the outside world stay (log 13). -/
def Obligations.ResetInputDiscardsPending : Prop :=
  ∀ (s : State) (rest : List Input), s.inputs = .reset :: rest →
    (s.status.busy = false ∨ s.delay ≠ 0 →
      step s = .next { State.resetOf s.capacity s.checks with
        inputs := rest, reads := s.reads, issued := s.issued, draws := s.draws }) ∧
    (s.status.busy = true → s.delay = 0 →
      step s = engineStep s ∧
        ∀ t, step s = .next t → t.inputs = .reset :: rest ∧ t.reads = s.reads ∧ t.status.busy = false)

/-! ### State -/

/-- R49: what reset leaves, for every capacity and build; the host reads ID as its constant. -/
def Obligations.ResetLeavesSpecifiedValues : Prop :=
  (∀ (c : Word) (k : Checks),
    let s := State.resetOf c k
    s.status.valid = false ∧ s.bitcount = 0#32 ∧ s.cmd = 0#32 ∧ s.arg0 = 0#32 ∧ s.arg1 = 0#32 ∧ s.result = 0#32 ∧
      s.daddr = 0#32 ∧ s.errinfo = 0#32 ∧ s.status.word = 0#32 ∧ s.status.busy = false ∧ s.status.found = false ∧
      s.status.err = false ∧ s.status.fault = false ∧ s.status.ecode = .none ∧ s.status.errop = 0#8 ∧
      s.capacity = c ∧ regValue .capacity s = c ∧ regValue .id s = 0x42565507#32) ∧
  (∃ (c : Word) (k : Checks), State.reset = State.resetOf c k)

/-- R40, R47: where each field of STATUS stands in its word; reserved bits read 0. R271: the values of ECODE. -/
def Obligations.StatusWordLayout : Prop :=
  (∀ st : Status,
    st.word.getLsbD 0 = st.busy ∧ st.word.getLsbD 1 = st.valid ∧ st.word.getLsbD 2 = st.found ∧
      st.word.getLsbD 3 = st.err ∧ st.word.getLsbD 4 = st.fault ∧ st.word.extractLsb' 5 3 = 0#3 ∧
      st.word.extractLsb' 8 4 = st.ecode.bits ∧ st.word.extractLsb' 12 4 = 0#4 ∧
      st.word.extractLsb' 16 8 = st.errop ∧ st.word.extractLsb' 24 8 = 0#8) ∧
  ECode.bits .none = 0#4 ∧ ECode.bits .indexOutOfRange = 1#4 ∧ ECode.bits .noInstance = 2#4 ∧
    ECode.bits .illegalCommand = 3#4 ∧ ECode.bits .allocationFailure = 4#4

/-- The state after reset satisfies the invariant. -/
def Obligations.ResetSatisfiesInvariant : Prop := State.reset.Inv

/-- Every step keeps the invariant: canonical storage inside its bounds, `n <= MAX_BITS` and `n = 0` without a vector
(R33), no pending command in a halted block (R92), FAULT and ERR as ECODE says (R271, R275, R280). -/
def Obligations.StepKeepsInvariant : Prop :=
  ∀ s t : State, s.Inv → step s = .next t → t.Inv

/-- From a state of the invariant no step faults, and in the checked build every step whose next input is an access of the
interface answers a next state, which satisfies the invariant again. -/
def Obligations.InvariantStatesNeverStop : Prop :=
  ∀ s : State, s.Inv → (∀ f, step s ≠ .fault f) ∧
    (s.checks = .checked → (∀ x ∈ s.inputs.head?, x.wf = true) → ∃ t, step s = .next t ∧ t.Inv)

/-- R43, R10, R11: no step changes the capacity or the build. -/
def Obligations.StepKeepsParameters : Prop :=
  ∀ s t : State, step s = .next t → t.capacity = s.capacity ∧ t.checks = s.checks

/-! ### How commands end -/

/-- R275, R277, R280, R281: a command that answers a next state halts the block, reports its recoverable failure, or
succeeds, and writes the failure record exactly as its end says. -/
def Obligations.CommandEndsOneOfThreeWays : Prop :=
  ∀ (i : Instr) (s t : State), exec i s = .next t →
    (∃ c v, (c = .indexOutOfRange ∨ c = .noInstance) ∧ t = s.haltedBy c ((encode i).extractLsb' 0 8) v) ∨
    ((i = .create ∨ i = .resize) ∧ s.maxBits < s.arg0.toNat ∧
      t = s.reportedBy .allocationFailure ((encode i).extractLsb' 0 8) s.arg0) ∨
    (t.status.busy = false ∧ t.status.err = false ∧ t.status.ecode = .none ∧ t.status.errop = s.status.errop ∧
      t.errinfo = s.errinfo ∧ t.status.fault = s.status.fault)

/-- R284, R11: in the unchecked build a step is refused exactly where the checked build would halt the block; where it
would not, the step is the same. -/
def Obligations.UncheckedBuildRefusesExactlyFatal : Prop :=
  ∀ s : State, s.checks = .unchecked → s.status.fault = false →
    (step s = .refused .uncheckedBuild ↔
      ∃ t, step { s with checks := .checked } = .next t ∧ t.status.fault = true) ∧
    (∀ t, step { s with checks := .checked } = .next t → t.status.fault = false →
      step s = .next { t with checks := .unchecked })

/-- R34 with log 11: in a state no run reaches, where the in-use bytes run past the last byte of the storage, a command
that would use the storage stops with the model's own fault. -/
def Obligations.StorageHoleStops : Prop :=
  ∀ (i : Instr) (s : State), i ∉ [Instr.nop, .create, .resize, .destroy] → s.status.valid = true →
    nbytes s.maxBits < nbytes s.n → s.arg0.toNat < s.n → s.arg1.toNat < s.n → exec i s = .fault .storageHole

/-! ### Class 0 -/

/-- R150: the word 0 is NOP, which completes, with or without a vector, and changes nothing but ERR, ECODE and BUSY. -/
def Obligations.NopCommand : Prop :=
  decode 0x00000000#32 = .ok .nop ∧ ∀ s : State, exec .nop s = .next s.succeeded

/-- R152, R153: CREATE beyond the capacity reports and changes nothing else; otherwise the vector has ARG0 bits, all 0,
whatever vector existed before. -/
def Obligations.CreateCommand : Prop :=
  ∀ s : State,
    (s.maxBits < s.arg0.toNat →
      exec .create s = .next (s.reportedBy .allocationFailure 0x01#8 s.arg0)) ∧
    (s.arg0.toNat ≤ s.maxBits → ∃ t, exec .create s = .next t ∧
      t = { s with
        status := { s.status with valid := true, err := false, ecode := .none, busy := false }
        bitcount := s.arg0
        storage := t.storage } ∧
      (∀ k, t.storage.readByte k = if k < nbytes s.arg0.toNat then 0x00#8 else s.storage.readByte k) ∧
      ∀ i < t.n, t.bit i = false)

/-- R156: RESIZE keeps the bits below `min(old, c)`, clears the bits `old .. c - 1`, and no other position changes. -/
def Obligations.ResizeCommand : Prop :=
  ∀ s : State,
    (s.status.valid = false → s.checks = .checked →
      exec .resize s = .next (s.haltedBy .noInstance 0x02#8 0#32)) ∧
    (s.status.valid = true → s.maxBits < s.arg0.toNat →
      exec .resize s = .next (s.reportedBy .allocationFailure 0x02#8 s.arg0)) ∧
    (s.status.valid = true → s.arg0.toNat ≤ s.maxBits → ∃ t, exec .resize s = .next t ∧
      t = { s with
        status := { s.status with err := false, ecode := .none, busy := false }
        bitcount := s.arg0
        storage := t.storage } ∧
      ∀ j, t.bit j = if s.n ≤ j ∧ j < s.arg0.toNat then false else s.bit j)

/-- R160: DESTROY clears VALID and BITCOUNT; without a vector it halts the block. That the storage keeps its bytes is the
model's choice (log 5): R160 leaves its contents unspecified. -/
def Obligations.DestroyCommand : Prop :=
  ∀ s : State,
    (s.status.valid = false → s.checks = .checked →
      exec .destroy s = .next (s.haltedBy .noInstance 0x03#8 0#32)) ∧
    (s.status.valid = true → exec .destroy s = .next { s with
      status := { s.status with valid := false, err := false, ecode := .none, busy := false }
      bitcount := 0#32 })

/-! ### Class 1 -/

/-- R171: GET writes the bit, zero-extended, to RESULT. -/
def Obligations.GetCommand : Prop :=
  ∀ s : State,
    (s.status.valid = false → s.checks = .checked →
      exec .get s = .next (s.haltedBy .noInstance 0x10#8 0#32)) ∧
    (s.status.valid = true → s.n ≤ s.arg0.toNat → s.checks = .checked →
      exec .get s = .next (s.haltedBy .indexOutOfRange 0x10#8 s.arg0)) ∧
    (s.status.valid = true → s.n ≤ s.maxBits → s.arg0.toNat < s.n →
      exec .get s = .next { s.succeeded with result := if s.bit s.arg0.toNat then 1#32 else 0#32 })

/-- R170, R172, R173, R174: SET, CLEAR and TOGGLE write the one bit and leave every other position of the storage, and
every register but ERR, ECODE and BUSY, alone. -/
def Obligations.SingleBitWriteCommands : Prop :=
  ∀ p ∈ [(Instr.set, 0x11#8, fun _ : Bool => true), (Instr.clear, 0x12#8, fun _ : Bool => false),
    (Instr.toggle, 0x13#8, fun b : Bool => !b)], ∀ s : State,
    (s.status.valid = false → s.checks = .checked →
      exec p.1 s = .next (s.haltedBy .noInstance p.2.1 0#32)) ∧
    (s.status.valid = true → s.n ≤ s.arg0.toNat → s.checks = .checked →
      exec p.1 s = .next (s.haltedBy .indexOutOfRange p.2.1 s.arg0)) ∧
    (s.status.valid = true → s.n ≤ s.maxBits → s.arg0.toNat < s.n → ∃ t, exec p.1 s = .next t ∧
      t = { s.succeeded with storage := t.storage } ∧
      ∀ j, t.bit j = if j = s.arg0.toNat then p.2.2 (s.bit j) else s.bit j)

/-- R175: SET twice, or CLEAR twice, leaves the state of once. -/
def Obligations.SetAndClearAreIdempotent : Prop :=
  ∀ i ∈ [Instr.set, Instr.clear], ∀ s : State, s.storage.wf → s.status.valid = true → s.n ≤ s.maxBits →
    s.arg0.toNat < s.n → ∃ t, exec i s = .next t ∧ exec i t = .next t

/-- R176: TOGGLE twice restores the vector. -/
def Obligations.ToggleIsAnInvolution : Prop :=
  ∀ s : State, s.storage.wf → s.status.valid = true → s.n ≤ s.maxBits → s.arg0.toNat < s.n →
    ∃ t, exec .toggle s = .next t ∧ exec .toggle t = .next s.succeeded

/-! ### Classes 2 and 3 -/

/-- R192, R193, R195, R196, R197: ARG0 is checked before ARG1; the bits of `[min, max]` take the operation, in either
order of the ends, and every other position of the storage, and every register but ERR, ECODE and BUSY, stays. -/
def Obligations.RegionCommands : Prop :=
  ∀ p ∈ [(Instr.setRegion, 0x21#8, fun _ : Bool => true), (Instr.clearRegion, 0x22#8, fun _ : Bool => false),
    (Instr.toggleRegion, 0x23#8, fun b : Bool => !b)], ∀ s : State,
    (s.status.valid = false → s.checks = .checked →
      exec p.1 s = .next (s.haltedBy .noInstance p.2.1 0#32)) ∧
    (s.status.valid = true → s.n ≤ s.arg0.toNat → s.checks = .checked →
      exec p.1 s = .next (s.haltedBy .indexOutOfRange p.2.1 s.arg0)) ∧
    (s.status.valid = true → s.arg0.toNat < s.n → s.n ≤ s.arg1.toNat → s.checks = .checked →
      exec p.1 s = .next (s.haltedBy .indexOutOfRange p.2.1 s.arg1)) ∧
    (s.status.valid = true → s.n ≤ s.maxBits → s.arg0.toNat < s.n → s.arg1.toNat < s.n → ∃ t,
      exec p.1 s = .next t ∧ t = { s.succeeded with storage := t.storage } ∧
      ∀ j, t.bit j =
        if min s.arg0.toNat s.arg1.toNat ≤ j ∧ j ≤ max s.arg0.toNat s.arg1.toNat then p.2.2 (s.bit j) else s.bit j)

/-- R200, R201, R202, R203: the whole-vector commands act on every vector bit and no other position, and halt on an empty
vector. -/
def Obligations.WholeVectorCommands : Prop :=
  ∀ p ∈ [(Instr.setAll, 0x31#8, fun _ : Bool => true), (Instr.clearAll, 0x32#8, fun _ : Bool => false),
    (Instr.toggleAll, 0x33#8, fun b : Bool => !b)], ∀ s : State,
    (s.status.valid = false → s.checks = .checked →
      exec p.1 s = .next (s.haltedBy .noInstance p.2.1 0#32)) ∧
    (s.status.valid = true → s.n = 0 → s.checks = .checked →
      exec p.1 s = .next (s.haltedBy .indexOutOfRange p.2.1 0#32)) ∧
    (s.status.valid = true → s.n ≤ s.maxBits → s.n ≠ 0 → ∃ t, exec p.1 s = .next t ∧
      t = { s.succeeded with storage := t.storage } ∧
      ∀ j, t.bit j = if j < s.n then p.2.2 (s.bit j) else s.bit j)

/-- R205: a whole-vector command is the region command over `[0, n - 1]`; with `n = 0` both halt. -/
def Obligations.WholeVectorEqualsFullRegion : Prop :=
  ∀ p ∈ [(Instr.setAll, Instr.setRegion), (Instr.clearAll, Instr.clearRegion), (Instr.toggleAll, Instr.toggleRegion)],
    ∀ s : State, s.status.valid = true → s.n ≤ s.maxBits →
    (s.n ≠ 0 → ∃ t, exec p.1 s = .next t ∧
      exec p.2 { s with arg0 := 0#32, arg1 := BitVec.ofNat 32 (s.n - 1) } =
        .next { t with arg0 := 0#32, arg1 := BitVec.ofNat 32 (s.n - 1) }) ∧
    (s.n = 0 → s.checks = .checked → ∃ t u, exec p.1 s = .next t ∧ t.status.fault = true ∧
      exec p.2 s = .next u ∧ u.status.fault = true)

/-- R197, R203, R205: TOGGLE_REGION twice with the same operands, and TOGGLE_ALL twice, restore the vector. -/
def Obligations.RegionTogglesAreInvolutions : Prop :=
  ∀ s : State, s.storage.wf → s.status.valid = true → s.n ≤ s.maxBits →
    (s.arg0.toNat < s.n → s.arg1.toNat < s.n →
      ∃ t, exec .toggleRegion s = .next t ∧ exec .toggleRegion t = .next s.succeeded) ∧
    (s.n ≠ 0 → ∃ t, exec .toggleAll s = .next t ∧ exec .toggleAll t = .next s.succeeded)

/-! ### Class 4 -/

/-- R220: every entry of the table is its byte's population count. -/
def Obligations.LutHoldsPopulationCounts : Prop :=
  ∀ b : Byte, (lut b).toNat = (List.range 8).countP fun p => b.getLsbD p

/-- R223, R224, R225: RESULT is the number of set, or of clear, vector bits; no index failure, `n = 0` included. -/
def Obligations.CountCommands : Prop :=
  ∀ p ∈ [(Instr.countSet, 0x40#8, true), (Instr.countClear, 0x41#8, false)], ∀ s : State,
    (s.status.valid = false → s.checks = .checked →
      exec p.1 s = .next (s.haltedBy .noInstance p.2.1 0#32)) ∧
    (s.status.valid = true → s.n ≤ s.maxBits → ∃ t, exec p.1 s = .next t ∧
      t = { s.succeeded with result := t.result } ∧
      t.result.toNat = (List.range s.n).countP fun i => s.bit i == p.2.2)

/-- R226: the two counts add up to the bit count, and COUNT_SET is the bit-by-bit count. -/
def Obligations.CountsAddUpToBitCount : Prop :=
  ∀ s : State, s.status.valid = true → s.n ≤ s.maxBits →
    ∃ t u, exec .countSet s = .next t ∧ exec .countClear s = .next u ∧ t.result.toNat + u.result.toNat = s.n ∧
      t.result.toNat = (List.range s.n).countP s.bit

/-! ### Class 5 -/

/-- R240, R243, R245, R246: the forward search answers the least matching index from ARG0 on, or FOUND = 0 and
0xFFFF_FFFF. -/
def Obligations.FindNextCommands : Prop :=
  ∀ p ∈ [(Instr.findNextClear, 0x50#8, false), (Instr.findNextSet, 0x51#8, true)], ∀ s : State,
    (s.status.valid = false → s.checks = .checked →
      exec p.1 s = .next (s.haltedBy .noInstance p.2.1 0#32)) ∧
    (s.status.valid = true → s.n ≤ s.arg0.toNat → s.checks = .checked →
      exec p.1 s = .next (s.haltedBy .indexOutOfRange p.2.1 s.arg0)) ∧
    (s.status.valid = true → s.n ≤ s.maxBits → s.arg0.toNat < s.n →
      (∀ i, s.arg0.toNat ≤ i → i < s.n → s.bit i = p.2.2 →
        (∀ j, s.arg0.toNat ≤ j → j < i → s.bit j ≠ p.2.2) →
        exec p.1 s = .next { s with
          status := { s.status with found := true, err := false, ecode := .none, busy := false }
          result := BitVec.ofNat 32 i }) ∧
      ((∀ i, s.arg0.toNat ≤ i → i < s.n → s.bit i ≠ p.2.2) →
        exec p.1 s = .next { s with
          status := { s.status with found := false, err := false, ecode := .none, busy := false }
          result := 0xFFFFFFFF#32 }))

/-- R241, R243, R248, R249: the backward search answers the greatest matching index from ARG0 down. -/
def Obligations.FindPrevCommands : Prop :=
  ∀ p ∈ [(Instr.findPrevClear, 0x52#8, false), (Instr.findPrevSet, 0x53#8, true)], ∀ s : State,
    (s.status.valid = false → s.checks = .checked →
      exec p.1 s = .next (s.haltedBy .noInstance p.2.1 0#32)) ∧
    (s.status.valid = true → s.n ≤ s.arg0.toNat → s.checks = .checked →
      exec p.1 s = .next (s.haltedBy .indexOutOfRange p.2.1 s.arg0)) ∧
    (s.status.valid = true → s.n ≤ s.maxBits → s.arg0.toNat < s.n →
      (∀ i, i ≤ s.arg0.toNat → s.bit i = p.2.2 →
        (∀ j, j ≤ s.arg0.toNat → i < j → s.bit j ≠ p.2.2) →
        exec p.1 s = .next { s with
          status := { s.status with found := true, err := false, ecode := .none, busy := false }
          result := BitVec.ofNat 32 i }) ∧
      ((∀ i, i ≤ s.arg0.toNat → s.bit i ≠ p.2.2) →
        exec p.1 s = .next { s with
          status := { s.status with found := false, err := false, ecode := .none, busy := false }
          result := 0xFFFFFFFF#32 }))

/-- R250, R251, R252: FIRST_CLEAR and FIRST_SET answer the least matching vector index, whatever ARG0 holds. -/
def Obligations.FirstCommands : Prop :=
  ∀ p ∈ [(Instr.firstClear, 0x54#8, false), (Instr.firstSet, 0x55#8, true)], ∀ s : State,
    (s.status.valid = false → s.checks = .checked →
      exec p.1 s = .next (s.haltedBy .noInstance p.2.1 0#32)) ∧
    (s.status.valid = true → s.n = 0 → s.checks = .checked →
      exec p.1 s = .next (s.haltedBy .indexOutOfRange p.2.1 0#32)) ∧
    (s.status.valid = true → s.n ≤ s.maxBits → s.n ≠ 0 →
      (∀ i, i < s.n → s.bit i = p.2.2 → (∀ j, j < i → s.bit j ≠ p.2.2) →
        exec p.1 s = .next { s with
          status := { s.status with found := true, err := false, ecode := .none, busy := false }
          result := BitVec.ofNat 32 i }) ∧
      ((∀ i, i < s.n → s.bit i ≠ p.2.2) →
        exec p.1 s = .next { s with
          status := { s.status with found := false, err := false, ecode := .none, busy := false }
          result := 0xFFFFFFFF#32 }))

/-- R250, R254, R255: LAST_CLEAR and LAST_SET answer the greatest matching vector index, whatever ARG0 holds. -/
def Obligations.LastCommands : Prop :=
  ∀ p ∈ [(Instr.lastClear, 0x56#8, false), (Instr.lastSet, 0x57#8, true)], ∀ s : State,
    (s.status.valid = false → s.checks = .checked →
      exec p.1 s = .next (s.haltedBy .noInstance p.2.1 0#32)) ∧
    (s.status.valid = true → s.n = 0 → s.checks = .checked →
      exec p.1 s = .next (s.haltedBy .indexOutOfRange p.2.1 0#32)) ∧
    (s.status.valid = true → s.n ≤ s.maxBits → s.n ≠ 0 →
      (∀ i, i < s.n → s.bit i = p.2.2 → (∀ j, j < s.n → i < j → s.bit j ≠ p.2.2) →
        exec p.1 s = .next { s with
          status := { s.status with found := true, err := false, ecode := .none, busy := false }
          result := BitVec.ofNat 32 i }) ∧
      ((∀ i, i < s.n → s.bit i ≠ p.2.2) →
        exec p.1 s = .next { s with
          status := { s.status with found := false, err := false, ecode := .none, busy := false }
          result := 0xFFFFFFFF#32 }))

/-- R256: the source's search contract on any 777-bit vector whose only set bits are 69 and 420, and its backward
counterparts. -/
def Obligations.SearchContract : Prop :=
  ∀ s : State, s.status.valid = true → s.n = 777 → s.n ≤ s.maxBits →
    (∀ i < 777, s.bit i = true ↔ i = 69 ∨ i = 420) →
    (∀ p ∈ [(Instr.findNextSet, 0#32, some 69#32), (Instr.findNextSet, 70#32, some 420#32), (Instr.findNextSet, 421#32, none),
      (Instr.findPrevSet, 776#32, some 420#32), (Instr.findPrevSet, 419#32, some 69#32), (Instr.findPrevSet, 68#32, none)],
      ∃ t, exec p.1 { s with arg0 := p.2.1 } = .next t ∧ t.status.found = p.2.2.isSome ∧
        t.result = p.2.2.getD 0xFFFFFFFF#32)

/-! ### What commands leave alone -/

/-- R36, R39, R44, R38: no command writes CMD, ARG0, ARG1 or DADDR, nor the capacity, the build or the record of the
outside world. -/
def Obligations.CommandsLeaveHostRegisters : Prop :=
  ∀ (i : Instr) (s t : State), exec i s = .next t →
    t.cmd = s.cmd ∧ t.arg0 = s.arg0 ∧ t.arg1 = s.arg1 ∧ t.daddr = s.daddr ∧ t.capacity = s.capacity ∧
      t.checks = s.checks ∧ t.inputs = s.inputs ∧ t.reads = s.reads ∧ t.delay = s.delay ∧ t.issued = s.issued ∧
      t.draws = s.draws

/-- R41: FOUND is written only by the eight FIND commands. R42: RESULT is written only by GET, the counts and the FIND
commands. -/
def Obligations.FoundAndResultWriters : Prop :=
  ∀ (i : Instr) (s t : State), exec i s = .next t →
    (i ∉ [Instr.findNextClear, .findNextSet, .findPrevClear, .findPrevSet, .firstClear, .firstSet, .lastClear, .lastSet] →
      t.status.found = s.status.found) ∧
    (i ∉ [Instr.get, .countSet, .countClear, .findNextClear, .findNextSet, .findPrevClear, .findPrevSet, .firstClear,
      .firstSet, .lastClear, .lastSet] → t.result = s.result)

/-- R32: VALID is set by CREATE and cleared by DESTROY, no other command writes it. R33: BITCOUNT is written only by CREATE,
RESIZE and DESTROY. -/
def Obligations.VectorLengthWriters : Prop :=
  ∀ (i : Instr) (s t : State), exec i s = .next t →
    (t.status.valid ≠ s.status.valid →
      (i = .create ∧ t.status.valid = true) ∨ (i = .destroy ∧ t.status.valid = false)) ∧
    (i ∉ [Instr.create, .resize, .destroy] → t.bitcount = s.bitcount)

/-- Every byte of the storage but the ones `storesByte` names from the command's operands reads as before; a command that
stores nothing leaves every byte (DESTROY among them: there it is the model's choice, log 5). -/
def Obligations.CommandsStoreOnlyTheirBytes : Prop :=
  ∀ (i : Instr) (s t : State), exec i s = .next t → ∀ k, ¬ storesByte i s k →
    t.storage.readByte k = s.storage.readByte k

/-- R116, R323: a register a command does not read has no effect on it. -/
def Obligations.UnreadOperandsHaveNoEffect : Prop :=
  ∀ (i : Instr) (s t : State), exec i s = .next t →
    (i ∈ [Instr.nop, .destroy, .setAll, .clearAll, .toggleAll, .countSet, .countClear, .firstClear, .firstSet, .lastClear,
      .lastSet] → ∀ v, exec i { s with arg0 := v } = .next { t with arg0 := v }) ∧
    (i ∉ [Instr.setRegion, .clearRegion, .toggleRegion] → ∀ v, exec i { s with arg1 := v } = .next { t with arg1 := v })

/-- R34, R48: pad positions and bytes past the vector change no step: from two states that differ only there, the steps
agree, on every register, every value the host reads and every vector bit. -/
def Obligations.StaleBytesAreNeverObserved : Prop :=
  ∀ s t : State, sameVector s t → sameResult (step s) (step t)

/-! ### The port -/

/-- R37, R43, R45: what a read of each register but DATA returns; it changes nothing else. -/
def Obligations.PortReadsReturnRegisters : Prop :=
  ∀ (s : State) (rest : List Input), s.status.busy = false →
    ∀ p ∈ [(0x00#8, s.cmd), (0x04#8, s.arg0), (0x08#8, s.arg1), (0x0C#8, s.status.word), (0x10#8, s.result),
      (0x14#8, s.bitcount), (0x18#8, s.capacity), (0x1C#8, s.daddr), (0x24#8, s.errinfo), (0x28#8, 0x42565507#32)],
    s.inputs = .read 4 p.1 :: rest → step s = .next { s with inputs := rest, reads := s.reads ++ [p.2] }

/-- R73: an unmapped offset reads 0 and ignores a write; neither has another effect, and both are held while BUSY = 1. -/
def Obligations.UnmappedOffsets : Prop :=
  ∀ (s : State) (rest : List Input) (off : PortOffset), s.status.busy = false → 0x2C ≤ off.toNat → off.toNat % 4 = 0 →
    (Input.read 4 off).held = true ∧ (∀ v, (Input.write 4 off v).held = true) ∧
    (s.inputs = .read 4 off :: rest → step s = .next { s with inputs := rest, reads := s.reads ++ [0#32] }) ∧
    (∀ v, s.inputs = .write 4 off v :: rest → step s = .next { s with inputs := rest })

/-- R47: a write to a read-only register changes nothing. -/
def Obligations.ReadOnlyRegistersIgnoreWrites : Prop :=
  ∀ (s : State) (rest : List Input) (v : Word), s.status.busy = false →
    ∀ off ∈ [0x0C#8, 0x10#8, 0x14#8, 0x18#8, 0x24#8, 0x28#8],
    s.inputs = .write 4 off v :: rest → step s = .next { s with inputs := rest }

/-- R39, R44: ARG0, ARG1 and DADDR take the whole written value. -/
def Obligations.WritableRegistersTakeTheValue : Prop :=
  ∀ (s : State) (rest : List Input) (v : Word), s.status.busy = false → s.status.fault = false →
    (s.inputs = .write 4 0x04#8 v :: rest → step s = .next { s with inputs := rest, arg0 := v }) ∧
    (s.inputs = .write 4 0x08#8 v :: rest → step s = .next { s with inputs := rest, arg1 := v }) ∧
    (s.inputs = .write 4 0x1C#8 v :: rest → step s = .next { s with inputs := rest, daddr := v })

/-- R84: a write to CMD latches the word, legal or not, and sets BUSY, and changes nothing else of the block. -/
def Obligations.CommandWriteIssues : Prop :=
  ∀ (s : State) (rest : List Input) (w : Word), s.status.busy = false → s.status.fault = false →
    s.inputs = .write 4 0x00#8 w :: rest → ∃ delay issued, step s = .next { s with
      inputs := rest
      cmd := w
      status := { s.status with busy := true }
      delay := delay
      issued := issued }

/-- R92: a halted block ignores every write, and a DATA read returns an 8-bit value and changes nothing but the record of
draws. -/
def Obligations.HaltedBlockIgnoresTheHost : Prop :=
  ∀ (s : State) (rest : List Input), s.status.fault = true → s.status.busy = false →
    (∀ off v, off.toNat % 4 = 0 → s.inputs = .write 4 off v :: rest → step s = .next { s with inputs := rest }) ∧
    (s.inputs = .read 4 0x20#8 :: rest → ∃ (b : Byte) (draws : Nat), step s = .next { s with
      inputs := rest, reads := s.reads ++ [b.setWidth 32], draws := draws })

/-- R92, R310: whatever happens to a halted block but a reset, every register and the storage stay, FAULT among them. -/
def Obligations.OnlyResetLeavesTheHalt : Prop :=
  ∀ s t : State, s.status.fault = true → s.status.busy = false → (∀ rest, s.inputs ≠ .reset :: rest) →
    step s = .next t → t = { s with inputs := t.inputs, reads := t.reads, draws := t.draws }

/-- R71: an access that is not 32 bits wide, or not at a multiple of 4, is refused. -/
def Obligations.MalformedAccessIsRefused : Prop :=
  ∀ (s : State) (rest : List Input) (width : Nat) (off : PortOffset), s.status.busy = false →
    (width ≠ 4 ∨ off.toNat % 4 ≠ 0) →
    (s.inputs = .read width off :: rest → step s = .refused .portAccess) ∧
    (∀ v, s.inputs = .write width off v :: rest → step s = .refused .portAccess)

/-- R85: every host access but a read of STATUS is held while BUSY = 1: the step is the engine's, the access is still to
come, no value is returned, and BUSY ends. That an access of another width or alignment is held too, a narrow or unaligned
read at the offset of STATUS among them, is the model's choice (log 12): R71 gives such an access no meaning. -/
def Obligations.HeldAccessWaitsForTheEngine : Prop :=
  (∀ width off, (Input.read width off).held = false ↔ width = 4 ∧ off = 0x0C#8) ∧
  (∀ width off v, (Input.write width off v).held = true) ∧
  ∀ (s : State) (x : Input) (rest : List Input), s.status.busy = true → s.inputs = x :: rest → x.held = true →
    step s = engineStep s ∧
    ∀ t, step s = .next t → t.inputs = s.inputs ∧ t.reads = s.reads ∧ t.status.busy = false

/-- R87: a STATUS read that comes while a command is pending returns BUSY = 1 and the other fields from before the command,
or waits until after the engine's step; which of the two is the model's free delay (log 7). -/
def Obligations.StatusReadWhilePending : Prop :=
  ∀ (s : State) (rest : List Input), s.status.busy = true → s.inputs = .read 4 0x0C#8 :: rest →
    (s.delay ≠ 0 → step s = .next { s with
      inputs := rest, reads := s.reads ++ [s.status.word], delay := s.delay - 1 } ∧ s.status.word.getLsbD 0 = true) ∧
    (s.delay = 0 → step s = engineStep s)

/-- R80: a DATA read returns the vector bits of byte DADDR with bit 8k + j in data bit 7 - j and zeros above, whatever the
pad positions hold, and moves DADDR on; without a vector, or past its last byte, it halts the block; of a halted block it
returns some byte and has no other effect. -/
def Obligations.DataReadReturnsVectorBits : Prop :=
  ∀ (s : State) (rest : List Input), s.status.busy = false → s.inputs = .read 4 0x20#8 :: rest →
    (s.status.fault = true → ∃ (b : Byte) (draws : Nat), step s = .next
      { s with inputs := rest, reads := s.reads ++ [b.setWidth 32], draws := draws }) ∧
    (s.status.fault = false → s.status.valid = false → s.checks = .checked →
      ∃ (b : Byte) (draws : Nat), step s = .next
      { s.haltedBy .noInstance 0xF0#8 s.daddr with
        inputs := rest, reads := s.reads ++ [b.setWidth 32], draws := draws }) ∧
    (s.status.fault = false → s.status.valid = true → nbytes s.n ≤ s.daddr.toNat → s.checks = .checked →
      ∃ (b : Byte) (draws : Nat), step s = .next
      { s.haltedBy .indexOutOfRange 0xF0#8 s.daddr with
        inputs := rest, reads := s.reads ++ [b.setWidth 32], draws := draws }) ∧
    (s.status.fault = false → s.status.valid = true → s.n ≤ s.maxBits → s.daddr.toNat < nbytes s.n →
      ∃ (b : Byte) (draws : Nat), step s = .next
      { s with
        inputs := rest, reads := s.reads ++ [b.setWidth 32], draws := draws, daddr := s.daddr + 1#32 } ∧
      ∀ j < 8, 8 * s.daddr.toNat + j < s.n → b.getLsbD (7 - j) = s.bit (8 * s.daddr.toNat + j))

/-- R81: a DATA write stores bits 7:0 into the vector positions of byte DADDR, no pad position and no other byte, and moves
DADDR on; without a vector, or past its last byte, it halts the block; a halted block ignores it. -/
def Obligations.DataWriteStoresVectorBits : Prop :=
  ∀ (s : State) (rest : List Input) (w : Word), s.status.busy = false → s.inputs = .write 4 0x20#8 w :: rest →
    (s.status.fault = true → step s = .next { s with inputs := rest }) ∧
    (s.status.fault = false → s.status.valid = false → s.checks = .checked →
      step s = .next
      { s.haltedBy .noInstance 0xF1#8 s.daddr with inputs := rest }) ∧
    (s.status.fault = false → s.status.valid = true → nbytes s.n ≤ s.daddr.toNat → s.checks = .checked →
      step s = .next
      { s.haltedBy .indexOutOfRange 0xF1#8 s.daddr with inputs := rest }) ∧
    (s.status.fault = false → s.status.valid = true → s.n ≤ s.maxBits → s.daddr.toNat < nbytes s.n →
      ∃ t, step s = .next t ∧
      t = { s with inputs := rest, daddr := s.daddr + 1#32, storage := t.storage } ∧
      (∀ j, t.bit j = if j / 8 = s.daddr.toNat ∧ j < s.n then w.getLsbD (7 - j % 8) else s.bit j) ∧
      ∀ k, k ≠ s.daddr.toNat → t.storage.readByte k = s.storage.readByte k)
end

