-- ==== Sys2Proof/Laws/Decode.lean ====
section
/-! SUPPORT. The fields of a command word, and what each class of the decoder accepts. -/

namespace Sys2Proof

/-- A word is its three fields (30_encoding.md R111). -/
theorem word_of_fields (w : Word) : w = (fieldResv w ++ fieldClass w ++ fieldFunc w : BitVec 32) := by
  refine BitVec.eq_of_getLsbD_eq fun p hp => ?_
  simp only [fieldResv, fieldClass, fieldFunc, BitVec.getLsbD_append, BitVec.getLsbD_extractLsb']
  by_cases h1 : p < 4
  · simp [h1]
  · by_cases h2 : p - 4 < 4
    · simp [h1, h2, show 4 + (p - 4) = p by omega]
    · simp only [h1, h2, decide_false]
      rw [show 8 + (p - 4 - 4) = p by omega]
      simp [show p - 4 - 4 < 24 by omega]

/-- Words with equal fields are equal. -/
theorem word_ext {v w : Word} (h1 : fieldResv v = fieldResv w) (h2 : fieldClass v = fieldClass w)
    (h3 : fieldFunc v = fieldFunc w) : v = w := by
  rw [word_of_fields v, word_of_fields w, h1, h2, h3]

/-- What the decoder accepts, by class (R112 to R115): one list of (CLASS, FUNC, command). -/
def acceptedFields : List (Nat × Nat × Instr) :=
  [(0, 0, .nop), (0, 1, .create), (0, 2, .resize), (0, 3, .destroy)] ++
  [(1, 0, .get), (1, 1, .set), (1, 2, .clear), (1, 3, .toggle)] ++
  [(2, 1, .setRegion), (2, 2, .clearRegion), (2, 3, .toggleRegion)] ++
  [(3, 1, .setAll), (3, 2, .clearAll), (3, 3, .toggleAll)] ++
  [(4, 0, .countSet), (4, 1, .countClear)] ++
  [(5, 0, .findNextClear), (5, 1, .findNextSet), (5, 2, .findPrevClear), (5, 3, .findPrevSet)] ++
  [(5, 4, .firstClear), (5, 5, .firstSet), (5, 6, .lastClear), (5, 7, .lastSet)]

/-- The part of the decoder after the reserved bits, on numbers. -/
def decodeFields (c f : Nat) : Except Illegal Instr :=
  match c with
  | 0 => decodeStorage f
  | 1 => decodeBit f
  | 2 => decodeRegion f
  | 3 => decodeWhole f
  | 4 => decodePopcount f
  | 5 => decodeSearch f
  | _ => .error .reservedClass

theorem decode_of_resv {w : Word} (h : fieldResv w = 0#24) :
    decode w = decodeFields (fieldClass w).toNat (fieldFunc w).toNat := by
  rw [decode, if_pos h]
  rfl

theorem decode_of_resv_ne {w : Word} (h : fieldResv w ≠ 0#24) : decode w = .error .reservedBits := if_neg h

/-- The decision of `decodeFields` on its 256 arguments. -/
theorem decodeFields_ok : ∀ c < 16, ∀ f < 16,
    ∀ i, decodeFields c f = .ok i → (c, f, i) ∈ acceptedFields := by
  have key : ∀ c < 16, ∀ f < 16,
      (match decodeFields c f with | .ok i => decide ((c, f, i) ∈ acceptedFields) | .error _ => true) = true := by decide
  intro c hc f hf i h
  have := key c hc f hf
  rw [h] at this
  exact of_decide_eq_true this

end Sys2Proof
end

