-- ==== Sys2Proof/Laws/Loop.lean ====
section
/-! SUPPORT. The counted loop: its one induction, and its value when it adds up. -/

namespace Sys2Proof.Machine

/-- A property that holds before the loop and that every pass keeps holds after it. -/
theorem forUp_induct {α : Type} {body : Nat → α → α} (P : Nat → α → Prop) {lo count : Nat} {a : α}
    (first : P lo a)
    (pass : ∀ k b, lo ≤ k → k < lo + count → P k b → P (k + 1) (body k b)) :
    P (lo + count) (forUp lo count body a) := by
  induction count generalizing lo a with
  | zero => exact first
  | succ rest ih =>
    have h := ih (lo := lo + 1) (a := body lo a) (pass lo a (by omega) (by omega) first)
      (fun k b h1 h2 => pass k b (by omega) (by omega))
    rwa [show lo + 1 + rest = lo + (rest + 1) by omega] at h

/-- A property that every pass keeps holds after the loop. -/
theorem forUp_keeps {α : Type} {body : Nat → α → α} (P : α → Prop) {lo count : Nat} {a : α} (first : P a)
    (pass : ∀ k b, lo ≤ k → k < lo + count → P b → P (body k b)) : P (forUp lo count body a) :=
  forUp_induct (fun _ => P) first pass

/-- A loop that adds `g k` in each pass adds their sum. -/
theorem forUp_sum (g : Nat → Nat) (lo count start : Nat) :
    forUp lo count (fun k c => c + g k) start = start + ((List.range' lo count).map g).sum := by
  induction count generalizing lo start with
  | zero => simp [forUp]
  | succ rest ih => simp [forUp, ih, List.range'_succ]; omega

end Sys2Proof.Machine
end

