-- ==== Sys2Proof/Laws/Memory.lean ====
section
/-! SUPPORT. The storage: read after write, the canonical form, and the bit view of byte operations. -/

namespace Sys2Proof.Machine

/-! ### Bytes -/

@[simp] theorem Memory.readByte_nil (k : Nat) : Memory.readByte [] k = 0x00#8 := rfl

theorem Memory.readByte_cons (c : Host.Cell) (m : Memory) (k : Nat) :
    Memory.readByte (c :: m) k = if c.1 = k then c.2 else Memory.readByte m k := rfl

theorem Memory.readByte_eq_zero {m : Memory} {k : Nat} (h : ∀ c ∈ m, c.1 ≠ k) : m.readByte k = 0x00#8 := by
  induction m with
  | nil => rfl
  | cons c rest ih =>
    rw [Memory.readByte_cons, if_neg (h c (by simp))]
    exact ih fun d hd => h d (by simp [hd])

/-- Dropping entries: a kept index reads as before. -/
theorem Memory.readByte_filter_keep {p : Host.Cell → Bool} {m : Memory} {k : Nat}
    (h : ∀ c : Host.Cell, c.1 = k → p c = true) : Memory.readByte (m.filter p) k = m.readByte k := by
  induction m with
  | nil => rfl
  | cons c rest ih =>
    by_cases hp : p c = true
    · rw [List.filter_cons_of_pos hp, Memory.readByte_cons, Memory.readByte_cons, ih]
    · rw [List.filter_cons_of_neg hp, Memory.readByte_cons, if_neg (fun e => hp (h c e)), ih]

/-- Dropping entries: a dropped index reads 0x00. -/
theorem Memory.readByte_filter_drop {p : Host.Cell → Bool} {m : Memory} {k : Nat}
    (h : ∀ c : Host.Cell, c.1 = k → p c = false) : Memory.readByte (m.filter p) k = 0x00#8 :=
  Memory.readByte_eq_zero fun c hc e => by simp [h c e] at hc

theorem Memory.readByte_insert_same {m : Memory} {k : Nat} (v : Byte) (h : ∀ c ∈ m, c.1 ≠ k) :
    (m.insert k v).readByte k = v := by
  induction m with
  | nil => simp [Memory.insert, Memory.readByte_cons]
  | cons c rest ih =>
    unfold Memory.insert
    split
    · simp [Memory.readByte_cons]
    · rw [Memory.readByte_cons, if_neg (h c (by simp))]
      exact ih fun d hd => h d (by simp [hd])

theorem Memory.readByte_insert_other (m : Memory) {k j : Nat} (v : Byte) (h : j ≠ k) :
    (m.insert k v).readByte j = m.readByte j := by
  induction m with
  | nil => simp [Memory.insert, Memory.readByte_cons, Ne.symm h]
  | cons c rest ih =>
    unfold Memory.insert
    split
    · rw [Memory.readByte_cons, if_neg (Ne.symm h)]
    · rw [Memory.readByte_cons, Memory.readByte_cons, ih]

/-- Read after write (00_scope.md R23). -/
theorem Memory.readByte_writeByte (m : Memory) (k j : Nat) (v : Byte) :
    (m.writeByte k v).readByte j = if j = k then v else m.readByte j := by
  unfold Memory.writeByte
  by_cases hj : j = k
  · subst hj
    simp only [if_true]
    split
    · rename_i hv
      rw [Memory.readByte_filter_drop (fun c hc => by simp [hc]), hv]
    · exact Memory.readByte_insert_same v fun c hc e => by simp [e] at hc
  · simp only [if_neg hj]
    split
    · exact Memory.readByte_filter_keep fun c hc => by simp [hc, hj]
    · rw [Memory.readByte_insert_other _ v hj]
      exact Memory.readByte_filter_keep fun c hc => by simp [hc, hj]

theorem Memory.readByte_writeByte_same (m : Memory) (k : Nat) (v : Byte) : (m.writeByte k v).readByte k = v := by
  simp [Memory.readByte_writeByte]

theorem Memory.readByte_writeByte_other (m : Memory) {k j : Nat} (v : Byte) (h : j ≠ k) :
    (m.writeByte k v).readByte j = m.readByte j := by
  simp [Memory.readByte_writeByte, h]

theorem Memory.readByte_zeroRange (m : Memory) (lo hi k : Nat) :
    (m.zeroRange lo hi).readByte k = if lo ≤ k ∧ k < hi then 0x00#8 else m.readByte k := by
  unfold Memory.zeroRange
  split
  · rename_i h
    exact Memory.readByte_filter_drop fun c hc => by simp [hc, h.1, h.2]
  · rename_i h
    exact Memory.readByte_filter_keep fun c hc => by subst hc; simp; omega

/-! ### The canonical form -/

theorem Memory.mem_insert {m : Memory} {k : Nat} {v : Byte} {c : Host.Cell} (h : c ∈ m.insert k v) :
    c = (k, v) ∨ c ∈ m := by
  induction m with
  | nil => simpa [Memory.insert] using h
  | cons d rest ih =>
    unfold Memory.insert at h
    split at h
    · simpa using h
    · rcases List.mem_cons.mp h with h | h
      · simp [h]
      · rcases ih h with h | h <;> simp [h]

theorem Memory.mem_writeByte {m : Memory} {k : Nat} {v : Byte} {c : Host.Cell} (h : c ∈ m.writeByte k v) :
    (c = (k, v) ∧ v ≠ 0x00#8) ∨ c ∈ m := by
  unfold Memory.writeByte at h
  split at h
  · exact .inr (List.mem_of_mem_filter h)
  · rename_i hv
    rcases Memory.mem_insert h with h | h
    · exact .inl ⟨h, hv⟩
    · exact .inr (List.mem_of_mem_filter h)

theorem Memory.insert_sorted {m : Memory} {k : Nat} (v : Byte) (hm : m.Pairwise (fun c d => c.1 < d.1))
    (hk : ∀ c ∈ m, c.1 ≠ k) : (m.insert k v).Pairwise (fun c d => c.1 < d.1) := by
  induction m with
  | nil => simp [Memory.insert]
  | cons c rest ih =>
    obtain ⟨hc, hrest⟩ := List.pairwise_cons.mp hm
    unfold Memory.insert
    split
    · rename_i hlt
      refine List.pairwise_cons.mpr ⟨fun d hd => ?_, hm⟩
      rcases List.mem_cons.mp hd with rfl | hd
      · exact hlt
      · exact Nat.lt_trans hlt (hc d hd)
    · rename_i hlt
      refine List.pairwise_cons.mpr ⟨fun d hd => ?_, ih hrest fun d hd => hk d (by simp [hd])⟩
      rcases Memory.mem_insert hd with rfl | hd
      · have := hk c (by simp); simp only; omega
      · exact hc d hd

theorem Memory.wf_nil : Memory.wf [] := by decide

theorem Memory.wf_filter {m : Memory} (p : Host.Cell → Bool) (h : m.wf) : Memory.wf (m.filter p) :=
  ⟨h.1.filter p, fun c hc => h.2 c (List.mem_of_mem_filter hc)⟩

/-- A byte write keeps the canonical form. -/
theorem Memory.wf_writeByte {m : Memory} (k : Nat) (v : Byte) (h : m.wf) : (m.writeByte k v).wf := by
  have hf : Memory.wf (m.filter fun c => c.1 != k) := Memory.wf_filter _ h
  refine ⟨?_, fun c hc => ?_⟩
  · unfold Memory.writeByte
    split
    · exact hf.1
    · exact Memory.insert_sorted v hf.1 fun c hc e => by simp [e] at hc
  · rcases Memory.mem_writeByte hc with ⟨rfl, hv⟩ | hc
    · exact hv
    · exact h.2 c hc

theorem Memory.wf_zeroRange {m : Memory} (lo hi : Nat) (h : m.wf) : (m.zeroRange lo hi).wf :=
  Memory.wf_filter _ h

theorem Memory.readByte_of_mem {m : Memory} (h : m.wf) {c : Host.Cell} (hc : c ∈ m) : m.readByte c.1 = c.2 := by
  induction m with
  | nil => simp at hc
  | cons d rest ih =>
    obtain ⟨hd, hrest⟩ := List.pairwise_cons.mp h.1
    rcases List.mem_cons.mp hc with rfl | hc
    · simp [Memory.readByte_cons]
    · rw [Memory.readByte_cons, if_neg (Nat.ne_of_lt (hd c hc))]
      exact ih ⟨hrest, fun e he => h.2 e (by simp [he])⟩ hc

/-- In the canonical form, equal reads are equal memories. -/
theorem Memory.ext_readByte {m m' : Memory} (h : m.wf) (h' : m'.wf) (e : ∀ k, m.readByte k = m'.readByte k) :
    m = m' := by
  induction m generalizing m' with
  | nil =>
    cases m' with
    | nil => rfl
    | cons d rest' =>
      have := Memory.readByte_of_mem h' (c := d) (by simp)
      rw [← e] at this
      exact absurd this.symm (h'.2 d (by simp))
  | cons c rest ih =>
    cases m' with
    | nil =>
      have := Memory.readByte_of_mem h (c := c) (by simp)
      rw [e] at this
      exact absurd this.symm (h.2 c (by simp))
    | cons d rest' =>
      obtain ⟨hc, hrest⟩ := List.pairwise_cons.mp h.1
      obtain ⟨hd, hrest'⟩ := List.pairwise_cons.mp h'.1
      have hcd : c = d := by
        have hle : c.1 ≤ d.1 ∨ d.1 ≤ c.1 := Nat.le_total _ _
        have key : ∀ {a b : Host.Cell} {t u : Memory}, Memory.wf (a :: t) → Memory.wf (b :: u) →
            (∀ k, Memory.readByte (a :: t) k = Memory.readByte (b :: u) k) → a.1 ≤ b.1 → a = b := by
          intro a b t u ha hb heq hle
          have h1 : Memory.readByte (b :: u) a.1 = a.2 := by
            rw [← heq]; simp [Memory.readByte_cons]
          rw [Memory.readByte_cons] at h1
          split at h1
          · rename_i hab; exact Prod.ext hab.symm h1.symm
          · rename_i hab
            have : Memory.readByte u a.1 = 0x00#8 := Memory.readByte_eq_zero fun x hx hxa => by
              have := (List.pairwise_cons.mp hb.1).1 x hx
              omega
            rw [this] at h1
            exact absurd h1.symm (ha.2 a (by simp))
        rcases hle with hle | hle
        · exact key h h' e hle
        · exact (key h' h (fun k => (e k).symm) hle).symm
      subst hcd
      refine congrArg (c :: ·) (ih ⟨hrest, fun x hx => h.2 x (by simp [hx])⟩
        ⟨hrest', fun x hx => h'.2 x (by simp [hx])⟩ fun k => ?_)
      have := e k
      rw [Memory.readByte_cons, Memory.readByte_cons] at this
      by_cases hk : c.1 = k
      · rw [Memory.readByte_eq_zero fun x hx => ?_, Memory.readByte_eq_zero fun x hx => ?_]
        · have := hd x hx; omega
        · have := hc x hx; omega
      · simpa [hk] using this

/-- Every listed index is below `bound`. -/
abbrev Memory.below (bound : Nat) (m : Memory) : Prop := ∀ c ∈ m, c.1 < bound

theorem Memory.below_writeByte {m : Memory} {bound k : Nat} (v : Byte) (h : m.below bound) (hk : k < bound) :
    (m.writeByte k v).below bound := fun c hc => by
  rcases Memory.mem_writeByte hc with ⟨rfl, -⟩ | hc
  · exact hk
  · exact h c hc

theorem Memory.below_zeroRange {m : Memory} {bound : Nat} (lo hi : Nat) (h : m.below bound) :
    (m.zeroRange lo hi).below bound := fun c hc => h c (List.mem_of_mem_filter hc)

/-! ### Bits -/

theorem Memory.bit_writeByte (m : Memory) (k j : Nat) (v : Byte) :
    (m.writeByte k v).bit j = if j / 8 = k then v.getLsbD (7 - j % 8) else m.bit j := by
  unfold Memory.bit
  rw [Memory.readByte_writeByte]
  split <;> rfl

/-- A byte is its eight bits. -/
theorem Memory.readByte_eq_of_bits {m m' : Memory} {k : Nat}
    (h : ∀ j, j / 8 = k → m.bit j = m'.bit j) : m.readByte k = m'.readByte k := by
  refine BitVec.eq_of_getLsbD_eq fun p hp => ?_
  have := h (8 * k + (7 - p)) (by omega)
  unfold Memory.bit at this
  rwa [show (8 * k + (7 - p)) / 8 = k by omega, show 7 - (8 * k + (7 - p)) % 8 = p by omega] at this

theorem Memory.ext_bits {m m' : Memory} (h : m.wf) (h' : m'.wf) (e : ∀ i, m.bit i = m'.bit i) : m = m' :=
  Memory.ext_readByte h h' fun _ => Memory.readByte_eq_of_bits fun j _ => e j

theorem getLsbD_bitMask (i p : Nat) (hp : p < 8) : (bitMask i).getLsbD p = decide (p = 7 - i % 8) := by
  have key : ∀ r < 8, ∀ q < 8, (0x80#8 >>> r).getLsbD q = decide (q = 7 - r) := by decide
  exact key (i % 8) (Nat.mod_lt _ (by omega)) p hp

/-- Bit write (00_scope.md R23): the one bit takes the value, every other position of the storage stays. -/
theorem Memory.bit_writeBit (m : Memory) (i j : Nat) (b : Bool) :
    (m.writeBit i b).bit j = if j = i then b else m.bit j := by
  unfold Memory.writeBit
  rw [Memory.bit_writeByte]
  by_cases hk : j / 8 = i / 8
  · have hp : 7 - j % 8 < 8 := by omega
    have hm := getLsbD_bitMask i (7 - j % 8) hp
    rw [if_pos hk]
    by_cases hj : j = i
    · subst hj
      cases b <;> simp [hm]
    · have : ¬ 7 - j % 8 = 7 - i % 8 := by omega
      cases b <;>
        simp only [Memory.bit, hk, hj, if_false, if_true, Bool.false_eq_true, BitVec.getLsbD_or, BitVec.getLsbD_and,
          BitVec.getLsbD_not, hm, this, hp, decide_true, decide_false, Bool.or_false, Bool.not_false, Bool.and_true]
  · rw [if_neg hk, if_neg (fun h => hk (by rw [h]))]

theorem Memory.wf_writeBit {m : Memory} (i : Nat) (b : Bool) (h : m.wf) : (m.writeBit i b).wf :=
  Memory.wf_writeByte _ _ h

theorem Memory.below_writeBit {m : Memory} {bound i : Nat} (b : Bool) (h : m.below bound) (hi : i / 8 < bound) :
    (m.writeBit i b).below bound := Memory.below_writeByte _ h hi

/-- A bit write leaves every other byte alone. -/
theorem Memory.readByte_writeBit_other (m : Memory) {i k : Nat} (b : Bool) (h : k ≠ i / 8) :
    (m.writeBit i b).readByte k = m.readByte k := Memory.readByte_writeByte_other _ _ h

theorem Memory.bit_zeroRange (m : Memory) (lo hi j : Nat) :
    (m.zeroRange lo hi).bit j = if lo ≤ j / 8 ∧ j / 8 < hi then false else m.bit j := by
  unfold Memory.bit
  rw [Memory.readByte_zeroRange]
  split <;> simp

/-! ### Pad positions -/

/-- The pad positions of byte `k` are the positions of its indices at or past `n`. -/
theorem getLsbD_padMask {n j : Nat} (hj : j / 8 < nbytes n) :
    (padMask n (j / 8)).getLsbD (7 - j % 8) = decide (n ≤ j) := by
  have key : ∀ r < 8, ∀ q < 8, (0xFF#8 >>> r).getLsbD (7 - q) = decide (r ≤ q) := by decide
  unfold padMask nbytes at *
  split
  · rename_i h
    rw [key _ (by omega) _ (by omega)]
    simp only [decide_eq_decide]
    omega
  · rename_i h
    have : ¬ n ≤ j := by omega
    simp [this]

theorem mergePad_eq (pm v p : Byte) : mergePad pm v p = (v &&& ~~~pm) ||| (p &&& pm) := by
  unfold mergePad
  split
  · rename_i h
    subst h
    rw [show ~~~(0x00#8) = BitVec.allOnes 8 by decide, BitVec.and_allOnes, BitVec.and_zero, BitVec.or_zero]
  · rfl

theorem getLsbD_mergePad (pm v p : Byte) {q : Nat} (hq : q < 8) :
    (mergePad pm v p).getLsbD q = if pm.getLsbD q then p.getLsbD q else v.getLsbD q := by
  rw [mergePad_eq]
  cases h : pm.getLsbD q <;>
    simp only [BitVec.getLsbD_or, BitVec.getLsbD_and, BitVec.getLsbD_not, h, hq, decide_true, Bool.not_false,
      Bool.not_true, Bool.and_true, Bool.and_false, Bool.or_false, Bool.false_or, if_true, if_false, Bool.false_eq_true]

end Sys2Proof.Machine
end

