-- ==== Sys2Proof/Laws/Popcount.lean ====
section
/-! SUPPORT. The popcount: the table holds every byte's count, and the table and the bit loop together count the vector's
set bits. -/

namespace Sys2Proof.Machine

set_option maxRecDepth 4000 in
/-- `LUT[b]` is the number of 1 bits of `b` (R220), from the most-significant bit down. -/
theorem lut_eq_sum : ∀ b : Byte,
    (lut b).toNat = ((List.range' 0 8).map fun j => (b.getLsbD (7 - j)).toNat).sum := by decide

/-- The set bits among the indices `lo .. lo + count - 1`, added up. -/
def bitSum (m : Memory) (lo count : Nat) : Nat := ((List.range' lo count).map fun i => (m.bit i).toNat).sum

theorem bitSum_append (m : Memory) (lo a b : Nat) :
    bitSum m lo (a + b) = bitSum m lo a + bitSum m (lo + a) b := by
  unfold bitSum
  rw [← List.range'_append_1, List.map_append, List.sum_append]

theorem bitSum_byte (m : Memory) (k : Nat) : bitSum m (8 * k) 8 = (lut (m.readByte k)).toNat := by
  rw [lut_eq_sum, bitSum, ← Nat.add_zero (8 * k), List.range'_eq_map_range, List.range'_eq_map_range, List.map_map,
    List.map_map]
  refine congrArg List.sum (List.map_congr_left fun j hj => ?_)
  have hj : j < 8 := List.mem_range.mp hj
  simp only [Function.comp, Memory.bit, Nat.add_zero, Nat.zero_add]
  rw [show (8 * k + j) / 8 = k by omega, show (8 * k + j) % 8 = j by omega]

theorem bitSum_bytes (m : Memory) (full : Nat) :
    ((List.range' 0 full).map fun k => (lut (m.readByte k)).toNat).sum = bitSum m 0 (8 * full) := by
  induction full with
  | zero => rfl
  | succ full ih =>
    rw [show full + 1 = full + 1 from rfl, ← List.range'_append_1, List.map_append, List.sum_append, ih,
      Nat.mul_succ, bitSum_append, Nat.zero_add, Nat.zero_add, bitSum_byte]
    simp

theorem bitSum_eq_countP (m : Memory) (n : Nat) : bitSum m 0 n = (List.range n).countP m.bit := by
  induction n with
  | zero => rfl
  | succ n ih =>
    rw [bitSum_append, ih, List.range_succ, List.countP_append]
    cases h : m.bit n <;> simp [bitSum, h]

/-- `CountSet()` is the number of indices below `n` whose bit is 1 (R223); pad positions do not count. -/
theorem countSet_eq (n : Nat) (m : Memory) : countSet n m = (List.range n).countP m.bit := by
  unfold countSet
  simp only [forUp_sum, Nat.zero_add]
  rw [bitSum_bytes, ← bitSum_eq_countP]
  conv_rhs => rw [show n = 8 * (n / 8) + (n - 8 * (n / 8)) by omega, bitSum_append]
  rw [Nat.zero_add]
  rfl

theorem countSet_le (n : Nat) (m : Memory) : countSet n m ≤ n := by
  rw [countSet_eq]
  exact Nat.le_trans List.countP_le_length (by simp)

end Sys2Proof.Machine
end

