-- ==== Sys2Proof/Laws/Region.lean ====
section
/-! SUPPORT. The region operator: the byte form of R191 writes exactly the bits of R192. -/

namespace Sys2Proof.Machine

theorem RegionKind.getLsbD_apply (op : RegionKind) (b mask : Byte) {p : Nat} (hp : p < 8) :
    (op.apply b mask).getLsbD p = if mask.getLsbD p then op.onBit (b.getLsbD p) else b.getLsbD p := by
  cases op <;> cases h : mask.getLsbD p <;>
    simp only [RegionKind.apply, RegionKind.onBit, BitVec.getLsbD_or, BitVec.getLsbD_and, BitVec.getLsbD_not,
      BitVec.getLsbD_xor, h, hp, decide_true, Bool.not_false, Bool.not_true, Bool.and_true, Bool.and_false, Bool.or_true,
      Bool.or_false, Bool.xor_true, Bool.xor_false, if_true, if_false, Bool.false_eq_true]

/-- A body byte is the region's operation under a full mask. -/
theorem RegionKind.fill_eq_apply (op : RegionKind) (b : Byte) : op.fill b = op.apply b 0xFF#8 := by
  cases op
  · exact (show 0xFF#8 = BitVec.allOnes 8 by decide) ▸ (BitVec.or_allOnes).symm
  · show 0x00#8 = b &&& ~~~(0xFF#8)
    rw [show ~~~(0xFF#8) = 0#8 by decide, BitVec.and_zero]
  · rfl

theorem RegionKind.getLsbD_fill (op : RegionKind) (b : Byte) {p : Nat} (hp : p < 8) :
    (op.fill b).getLsbD p = op.onBit (b.getLsbD p) := by
  have full : ∀ q < 8, (0xFF#8).getLsbD q = true := by decide
  rw [op.fill_eq_apply, op.getLsbD_apply _ _ hp, full p hp, if_pos rfl]

theorem getLsbD_headMask (lo j : Nat) : (headMask lo).getLsbD (7 - j % 8) = decide (lo % 8 ≤ j % 8) := by
  have key : ∀ r < 8, ∀ q < 8, (0xFF#8 >>> r).getLsbD (7 - q) = decide (r ≤ q) := by decide
  exact key _ (Nat.mod_lt _ (by omega)) _ (Nat.mod_lt _ (by omega))

theorem getLsbD_tailMask (hi j : Nat) : (tailMask hi).getLsbD (7 - j % 8) = decide (j % 8 ≤ hi % 8) := by
  have key : ∀ r < 8, ∀ q < 8, (0xFF#8 <<< (7 - r)).getLsbD (7 - q) = decide (q ≤ r) := by decide
  exact key _ (Nat.mod_lt _ (by omega)) _ (Nat.mod_lt _ (by omega))

theorem bit_regionByte (op : RegionKind) (k j : Nat) (mask : Byte) (m : Memory) :
    (regionByte op k mask m).bit j =
      if j / 8 = k ∧ mask.getLsbD (7 - j % 8) = true then op.onBit (m.bit j) else m.bit j := by
  unfold regionByte
  rw [Memory.bit_writeByte]
  by_cases hk : j / 8 = k
  · subst hk
    rw [if_pos rfl, op.getLsbD_apply _ _ (by omega)]
    simp only [true_and, Memory.bit]
  · simp [hk]

theorem bit_regionBody (op : RegionKind) {hb tb : Nat} (h : hb < tb) (m : Memory) (j : Nat) :
    (regionBody op hb tb m).bit j = if hb < j / 8 ∧ j / 8 < tb then op.onBit (m.bit j) else m.bit j := by
  have key := forUp_induct (body := fun k (m : Memory) => m.writeByte k (op.fill (m.readByte k)))
    (fun k m' => ∀ j, Memory.bit m' j = if hb < j / 8 ∧ j / 8 < k then op.onBit (m.bit j) else m.bit j)
    (lo := hb + 1) (count := tb - (hb + 1)) (a := m)
    (fun j => by rw [if_neg (by omega)])
    (fun k m' h1 _ ih j => by
      rw [Memory.bit_writeByte]
      by_cases hk : j / 8 = k
      · rw [if_pos hk, op.getLsbD_fill _ (by omega), if_pos (by omega)]
        have := ih j
        rw [if_neg (by omega)] at this
        rw [← this, Memory.bit, hk]
      · rw [if_neg hk, ih j]
        by_cases hj : hb < j / 8 ∧ j / 8 < k
        · rw [if_pos hj, if_pos (by omega)]
        · rw [if_neg hj, if_neg (by omega)])
  rw [show hb + 1 + (tb - (hb + 1)) = tb by omega] at key
  exact key j

/-- The region operator (R192): exactly the bits of `[lo, hi]` change, pad positions and bytes past the region included
in what stays. -/
theorem bit_regionOp (op : RegionKind) {lo hi : Nat} (h : lo ≤ hi) (m : Memory) (j : Nat) :
    (regionOp op lo hi m).bit j = if lo ≤ j ∧ j ≤ hi then op.onBit (m.bit j) else m.bit j := by
  unfold regionOp
  split
  · rename_i hb
    rw [bit_regionByte, BitVec.getLsbD_and, getLsbD_headMask, getLsbD_tailMask]
    refine ite_congr (propext ?_) (fun _ => rfl) (fun _ => rfl)
    simp only [Bool.and_eq_true, decide_eq_true_eq]
    omega
  · rename_i hb
    have hlt : lo / 8 < hi / 8 := by omega
    rw [bit_regionByte, bit_regionBody op hlt, bit_regionByte, getLsbD_headMask, getLsbD_tailMask]
    simp only [decide_eq_true_eq]
    by_cases hj : lo ≤ j ∧ j ≤ hi
    · rw [if_pos hj]
      by_cases h1 : j / 8 = lo / 8
      · rw [if_neg (by omega), if_neg (by omega), if_pos (by omega)]
      · by_cases h2 : j / 8 = hi / 8
        · rw [if_pos (by omega), if_neg (by omega), if_neg (by omega)]
        · rw [if_neg (by omega), if_pos (by omega), if_neg (by omega)]
    · rw [if_neg hj, if_neg (by omega), if_neg (by omega), if_neg (by omega)]

/-- Bytes outside the region's first to last byte stay (R206). -/
theorem readByte_regionOp (op : RegionKind) {lo hi : Nat} (h : lo ≤ hi) (m : Memory) {k : Nat}
    (hk : k < lo / 8 ∨ hi / 8 < k) : (regionOp op lo hi m).readByte k = m.readByte k :=
  Memory.readByte_eq_of_bits fun j hj => by rw [bit_regionOp op h, if_neg (by omega)]

/-- A property of storages that writes to the region's bytes keep, the region operator keeps. -/
theorem regionOp_keeps (P : Memory → Prop) (op : RegionKind) {lo hi : Nat} (h : lo ≤ hi) {m : Memory} (first : P m)
    (write : ∀ m k v, k ≤ hi / 8 → P m → P (Memory.writeByte m k v)) : P (regionOp op lo hi m) := by
  unfold regionOp
  split
  · exact write _ _ _ (by omega) first
  · refine write _ _ _ (Nat.le_refl _) (forUp_keeps P (write _ _ _ (by omega) first) fun k m' _ hk hp => ?_)
    exact write _ _ _ (by omega) hp

theorem wf_regionOp (op : RegionKind) {lo hi : Nat} (h : lo ≤ hi) {m : Memory} (hm : m.wf) :
    (regionOp op lo hi m).wf :=
  regionOp_keeps _ op h hm fun _ _ _ _ => Memory.wf_writeByte _ _

theorem below_regionOp (op : RegionKind) {lo hi bound : Nat} (h : lo ≤ hi) (hb : hi / 8 < bound) {m : Memory}
    (hm : m.below bound) : (regionOp op lo hi m).below bound :=
  regionOp_keeps _ op h hm fun _ _ _ hk hp => Memory.below_writeByte _ hp (by omega)

end Sys2Proof.Machine
end

