-- ==== Sys2Proof/Laws/Search.lean ====
section
/-! SUPPORT. The search engine: the byte form of R244 finds what the contracts R240 and R241 say. -/

namespace Sys2Proof.Machine

set_option maxRecDepth 8000 in
theorem clz8_spec : ∀ b : Byte, b ≠ 0x00#8 →
    clz8 b < 8 ∧ b.getLsbD (7 - clz8 b) = true ∧ ∀ p < clz8 b, b.getLsbD (7 - p) = false := by decide

set_option maxRecDepth 8000 in
theorem ctz8_spec : ∀ b : Byte, b ≠ 0x00#8 →
    ctz8 b < 8 ∧ b.getLsbD (ctz8 b) = true ∧ ∀ p < ctz8 b, b.getLsbD p = false := by decide

theorem getLsbD_matchByte (t : Bool) (b : Byte) {p : Nat} (hp : p < 8) :
    (matchByte t b).getLsbD p = (b.getLsbD p == t) := by
  unfold matchByte
  cases t <;> cases h : b.getLsbD p <;>
    simp only [if_true, if_false, Bool.false_eq_true, BitVec.getLsbD_not, h, hp, decide_true, Bool.true_and,
      Bool.not_true, Bool.not_false, beq_self_eq_true] <;> rfl

/-- The masks of the forward scan keep exactly the indices from `f` to `n - 1`. -/
theorem getLsbD_forwardMask {n f j : Nat} (hf : f / 8 ≤ j / 8) (hj : j / 8 < nbytes n) :
    (forwardMask n f (j / 8)).getLsbD (7 - j % 8) = decide (f ≤ j ∧ j < n) := by
  have key : ∀ r < 8, ∀ q < 8, (0xFF#8 >>> r).getLsbD (7 - q) = decide (r ≤ q) := by decide
  have full : ∀ q < 8, (0xFF#8).getLsbD (7 - q) = true := by decide
  have hq : j % 8 < 8 := Nat.mod_lt _ (by omega)
  have hstart : (if j / 8 = f / 8 then 0xFF#8 >>> (f % 8) else 0xFF#8 : Byte).getLsbD (7 - j % 8) = decide (f ≤ j) := by
    split
    · rw [key _ (Nat.mod_lt _ (by omega)) _ hq]
      simp only [decide_eq_decide]; omega
    · rw [full _ hq]
      have : f ≤ j := by omega
      simp [this]
  have hend : (if j / 8 = nbytes n - 1 then ~~~padMask n (j / 8) else 0xFF#8 : Byte).getLsbD (7 - j % 8) =
      decide (j < n) := by
    split
    · rw [BitVec.getLsbD_not, getLsbD_padMask hj]
      by_cases h : n ≤ j
      · simp [h, Nat.not_lt.mpr h]
      · simp [h, Nat.lt_of_not_le h]; omega
    · rw [full _ hq]
      have : j < n := by unfold nbytes at *; omega
      simp [this]
  unfold forwardMask
  rw [BitVec.getLsbD_and, hstart, hend, Bool.decide_and]

/-- The mask of the backward scan keeps exactly the indices up to `f`. -/
theorem getLsbD_backwardMask {f j : Nat} (hj : j / 8 ≤ f / 8) :
    (backwardMask f (j / 8)).getLsbD (7 - j % 8) = decide (j ≤ f) := by
  have key : ∀ r < 8, ∀ q < 8, (0xFF#8 <<< (7 - r)).getLsbD (7 - q) = decide (q ≤ r) := by decide
  have full : ∀ q < 8, (0xFF#8).getLsbD (7 - q) = true := by decide
  have hq : j % 8 < 8 := Nat.mod_lt _ (by omega)
  unfold backwardMask
  split
  · rw [key _ (Nat.mod_lt _ (by omega)) _ hq]
    simp only [decide_eq_decide]; omega
  · rw [full _ hq]
    have : j ≤ f := by omega
    simp [this]

/-- A byte of the forward scan that is skipped holds no match. -/
theorem forward_skip {t : Bool} {n f j : Nat} {m : Memory} (hf : f / 8 ≤ j / 8) (hj : j / 8 < nbytes n)
    (h : matchByte t (m.readByte (j / 8)) &&& forwardMask n f (j / 8) = 0x00#8) (hr : f ≤ j ∧ j < n) :
    m.bit j ≠ t := fun e => by
  have h0 := congrArg (fun b : Byte => b.getLsbD (7 - j % 8)) h
  simp only [BitVec.getLsbD_and, getLsbD_forwardMask hf hj, getLsbD_matchByte _ _ (show 7 - j % 8 < 8 by omega)] at h0
  rw [show (m.readByte (j / 8)).getLsbD (7 - j % 8) = m.bit j from rfl, e] at h0
  simp [hr] at h0

/-- What a scan answers: a match with no match before it in the scan's order, or none at all. -/
theorem scanForward_spec (t : Bool) {n f : Nat} (m : Memory) {k count : Nat} (hf : f / 8 ≤ k)
    (hc : k + count = nbytes n) :
    match scanForward t n f m k count with
    | some i => f ≤ i ∧ i < n ∧ m.bit i = t ∧ ∀ j, f ≤ j → 8 * k ≤ j → j < i → m.bit j ≠ t
    | none => ∀ j, f ≤ j → 8 * k ≤ j → j < n → m.bit j ≠ t := by
  induction count generalizing k with
  | zero =>
    intro j _ h1 h2
    unfold nbytes at hc
    omega
  | succ rest ih =>
    have hk : k < nbytes n := by omega
    unfold scanForward
    by_cases hb : matchByte t (m.readByte k) &&& forwardMask n f k = 0x00#8
    · simp only [hb, if_true]
      have ih := ih (k := k + 1) (by omega) (by omega)
      have skip : ∀ j, j / 8 = k → f ≤ j → j < n → m.bit j ≠ t := fun j hj h1 h2 => by
        subst hj
        exact forward_skip hf hk hb ⟨h1, h2⟩
      revert ih
      cases scanForward t n f m (k + 1) rest with
      | none =>
        intro ih j h1 h2 h3
        by_cases hj : j / 8 = k
        · exact skip j hj h1 h3
        · exact ih j h1 (by omega) h3
      | some i =>
        intro ih
        refine ⟨ih.1, ih.2.1, ih.2.2.1, fun j h1 h2 h3 => ?_⟩
        by_cases hj : j / 8 = k
        · exact skip j hj h1 (by have := ih.2.1; omega)
        · exact ih.2.2.2 j h1 (by omega) h3
    · simp only [hb, if_false]
      obtain ⟨hlt, hset, hbefore⟩ := clz8_spec _ hb
      have at_ : ∀ p < 8, (matchByte t (m.readByte k) &&& forwardMask n f k).getLsbD (7 - p) =
          ((m.bit (8 * k + p) == t) && decide (f ≤ 8 * k + p ∧ 8 * k + p < n)) := fun p hp => by
        have hd : (8 * k + p) / 8 = k := by omega
        have hm : (8 * k + p) % 8 = p := by omega
        have hmask := getLsbD_forwardMask (n := n) (f := f) (j := 8 * k + p) (by omega) (by omega)
        rw [hd, hm] at hmask
        rw [BitVec.getLsbD_and, hmask, getLsbD_matchByte _ _ (by omega), Memory.bit, hd, hm]
      rw [at_ _ hlt] at hset
      simp only [Bool.and_eq_true, beq_iff_eq, decide_eq_true_eq] at hset
      refine ⟨hset.2.1, hset.2.2, hset.1, fun j h1 h2 h3 e => ?_⟩
      have := hbefore (j - 8 * k) (by omega)
      rw [at_ _ (by omega), show 8 * k + (j - 8 * k) = j by omega, e] at this
      have hn := hset.2.2
      simp [h1] at this
      omega

/-- `FindNext` (R240): the least index from `f` on whose bit is `t`. -/
theorem findNext_spec (t : Bool) {n f : Nat} (m : Memory) (hf : f < n) :
    match findNext t n f m with
    | some i => f ≤ i ∧ i < n ∧ m.bit i = t ∧ ∀ j, f ≤ j → j < i → m.bit j ≠ t
    | none => ∀ j, f ≤ j → j < n → m.bit j ≠ t := by
  have h := scanForward_spec t m (n := n) (f := f) (k := f / 8) (count := nbytes n - f / 8) (Nat.le_refl _)
    (by unfold nbytes; omega)
  unfold findNext
  revert h
  cases scanForward t n f m (f / 8) (nbytes n - f / 8) with
  | none => exact fun h j h1 h2 => h j h1 (by omega) h2
  | some i => exact fun h => ⟨h.1, h.2.1, h.2.2.1, fun j h1 h2 => h.2.2.2 j h1 (by omega) h2⟩

theorem scanBackward_spec (t : Bool) {f : Nat} (m : Memory) {count : Nat} (hc : count ≤ f / 8 + 1) :
    match scanBackward t f m count with
    | some i => i ≤ f ∧ m.bit i = t ∧ ∀ j, j ≤ f → j < 8 * count → i < j → m.bit j ≠ t
    | none => ∀ j, j ≤ f → j < 8 * count → m.bit j ≠ t := by
  induction count with
  | zero => intro j _ h; omega
  | succ k ih =>
    have at_ : ∀ p < 8, (matchByte t (m.readByte k) &&& backwardMask f k).getLsbD (7 - p) =
        ((m.bit (8 * k + p) == t) && decide (8 * k + p ≤ f)) := fun p hp => by
      have hd : (8 * k + p) / 8 = k := by omega
      have hm : (8 * k + p) % 8 = p := by omega
      have hmask := getLsbD_backwardMask (f := f) (j := 8 * k + p) (by omega)
      rw [hd, hm] at hmask
      rw [BitVec.getLsbD_and, hmask, getLsbD_matchByte _ _ (by omega), Memory.bit, hd, hm]
    unfold scanBackward
    by_cases hb : matchByte t (m.readByte k) &&& backwardMask f k = 0x00#8
    · simp only [hb, if_true]
      have skip : ∀ j, j / 8 = k → j ≤ f → m.bit j ≠ t := fun j hj h1 e => by
        have := at_ (j % 8) (by omega)
        rw [hb, show 8 * k + j % 8 = j by omega, e] at this
        simp [h1] at this
      have ih := ih (by omega)
      revert ih
      cases scanBackward t f m k with
      | none =>
        intro ih j h1 h2
        by_cases hj : j / 8 = k
        · exact skip j hj h1
        · exact ih j h1 (by omega)
      | some i =>
        intro ih
        refine ⟨ih.1, ih.2.1, fun j h1 h2 h3 => ?_⟩
        by_cases hj : j / 8 = k
        · exact skip j hj h1
        · exact ih.2.2 j h1 (by omega) h3
    · simp only [hb, if_false]
      obtain ⟨hlt, hset, hbefore⟩ := ctz8_spec _ hb
      generalize hz : ctz8 (matchByte t (m.readByte k) &&& backwardMask f k) = z at *
      have h7 := at_ (7 - z) (by omega)
      rw [show 7 - (7 - z) = z by omega, hset, show 8 * k + (7 - z) = 8 * k + 7 - z by omega] at h7
      have h7 := h7.symm
      simp only [Bool.and_eq_true, beq_iff_eq, decide_eq_true_eq] at h7
      refine ⟨h7.2, h7.1, fun j h1 h2 h3 e => ?_⟩
      have h9 := at_ (j - 8 * k) (by omega)
      rw [hbefore (7 - (j - 8 * k)) (by omega), show 8 * k + (j - 8 * k) = j by omega, e] at h9
      simp [h1] at h9

/-- `FindPrev` (R241): the greatest index up to `f` whose bit is `t`. -/
theorem findPrev_spec (t : Bool) {f : Nat} (m : Memory) :
    match findPrev t f m with
    | some i => i ≤ f ∧ m.bit i = t ∧ ∀ j, j ≤ f → i < j → m.bit j ≠ t
    | none => ∀ j, j ≤ f → m.bit j ≠ t := by
  have h := scanBackward_spec t m (f := f) (count := f / 8 + 1) (Nat.le_refl _)
  unfold findPrev
  revert h
  cases scanBackward t f m (f / 8 + 1) with
  | none => exact fun h j h1 => h j h1 (by omega)
  | some i => exact fun h => ⟨h.1, h.2.1, fun j h1 h2 => h.2.2 j h1 (by omega) h2⟩

end Sys2Proof.Machine
end

