-- ==== Sys2Proof/Laws/State.lean ====
section
/-! SUPPORT. The state's updates, field by field. -/

namespace Sys2Proof.Machine

/-! ### withFound -/

@[simp] theorem State.withFound_cmd (s : State) (b : Bool) : (s.withFound b).cmd = s.cmd := rfl
@[simp] theorem State.withFound_arg0 (s : State) (b : Bool) : (s.withFound b).arg0 = s.arg0 := rfl
@[simp] theorem State.withFound_arg1 (s : State) (b : Bool) : (s.withFound b).arg1 = s.arg1 := rfl
@[simp] theorem State.withFound_status (s : State) (b : Bool) : (s.withFound b).status = { s.status with found := b } := rfl
@[simp] theorem State.withFound_result (s : State) (b : Bool) : (s.withFound b).result = s.result := rfl
@[simp] theorem State.withFound_bitcount (s : State) (b : Bool) : (s.withFound b).bitcount = s.bitcount := rfl
@[simp] theorem State.withFound_daddr (s : State) (b : Bool) : (s.withFound b).daddr = s.daddr := rfl
@[simp] theorem State.withFound_errinfo (s : State) (b : Bool) : (s.withFound b).errinfo = s.errinfo := rfl
@[simp] theorem State.withFound_storage (s : State) (b : Bool) : (s.withFound b).storage = s.storage := rfl
@[simp] theorem State.withFound_capacity (s : State) (b : Bool) : (s.withFound b).capacity = s.capacity := rfl
@[simp] theorem State.withFound_checks (s : State) (b : Bool) : (s.withFound b).checks = s.checks := rfl
@[simp] theorem State.withFound_inputs (s : State) (b : Bool) : (s.withFound b).inputs = s.inputs := rfl
@[simp] theorem State.withFound_reads (s : State) (b : Bool) : (s.withFound b).reads = s.reads := rfl
@[simp] theorem State.withFound_delay (s : State) (b : Bool) : (s.withFound b).delay = s.delay := rfl
@[simp] theorem State.withFound_issued (s : State) (b : Bool) : (s.withFound b).issued = s.issued := rfl
@[simp] theorem State.withFound_draws (s : State) (b : Bool) : (s.withFound b).draws = s.draws := rfl

/-! ### withValid -/

@[simp] theorem State.withValid_cmd (s : State) (b : Bool) : (s.withValid b).cmd = s.cmd := rfl
@[simp] theorem State.withValid_arg0 (s : State) (b : Bool) : (s.withValid b).arg0 = s.arg0 := rfl
@[simp] theorem State.withValid_arg1 (s : State) (b : Bool) : (s.withValid b).arg1 = s.arg1 := rfl
@[simp] theorem State.withValid_status (s : State) (b : Bool) : (s.withValid b).status = { s.status with valid := b } := rfl
@[simp] theorem State.withValid_result (s : State) (b : Bool) : (s.withValid b).result = s.result := rfl
@[simp] theorem State.withValid_bitcount (s : State) (b : Bool) : (s.withValid b).bitcount = s.bitcount := rfl
@[simp] theorem State.withValid_daddr (s : State) (b : Bool) : (s.withValid b).daddr = s.daddr := rfl
@[simp] theorem State.withValid_errinfo (s : State) (b : Bool) : (s.withValid b).errinfo = s.errinfo := rfl
@[simp] theorem State.withValid_storage (s : State) (b : Bool) : (s.withValid b).storage = s.storage := rfl
@[simp] theorem State.withValid_capacity (s : State) (b : Bool) : (s.withValid b).capacity = s.capacity := rfl
@[simp] theorem State.withValid_checks (s : State) (b : Bool) : (s.withValid b).checks = s.checks := rfl
@[simp] theorem State.withValid_inputs (s : State) (b : Bool) : (s.withValid b).inputs = s.inputs := rfl
@[simp] theorem State.withValid_reads (s : State) (b : Bool) : (s.withValid b).reads = s.reads := rfl
@[simp] theorem State.withValid_delay (s : State) (b : Bool) : (s.withValid b).delay = s.delay := rfl
@[simp] theorem State.withValid_issued (s : State) (b : Bool) : (s.withValid b).issued = s.issued := rfl
@[simp] theorem State.withValid_draws (s : State) (b : Bool) : (s.withValid b).draws = s.draws := rfl

/-! ### withoutBusy -/

@[simp] theorem State.withoutBusy_cmd (s : State) : (s.withoutBusy).cmd = s.cmd := rfl
@[simp] theorem State.withoutBusy_arg0 (s : State) : (s.withoutBusy).arg0 = s.arg0 := rfl
@[simp] theorem State.withoutBusy_arg1 (s : State) : (s.withoutBusy).arg1 = s.arg1 := rfl
@[simp] theorem State.withoutBusy_status (s : State) : (s.withoutBusy).status = { s.status with busy := false } := rfl
@[simp] theorem State.withoutBusy_result (s : State) : (s.withoutBusy).result = s.result := rfl
@[simp] theorem State.withoutBusy_bitcount (s : State) : (s.withoutBusy).bitcount = s.bitcount := rfl
@[simp] theorem State.withoutBusy_daddr (s : State) : (s.withoutBusy).daddr = s.daddr := rfl
@[simp] theorem State.withoutBusy_errinfo (s : State) : (s.withoutBusy).errinfo = s.errinfo := rfl
@[simp] theorem State.withoutBusy_storage (s : State) : (s.withoutBusy).storage = s.storage := rfl
@[simp] theorem State.withoutBusy_capacity (s : State) : (s.withoutBusy).capacity = s.capacity := rfl
@[simp] theorem State.withoutBusy_checks (s : State) : (s.withoutBusy).checks = s.checks := rfl
@[simp] theorem State.withoutBusy_inputs (s : State) : (s.withoutBusy).inputs = s.inputs := rfl
@[simp] theorem State.withoutBusy_reads (s : State) : (s.withoutBusy).reads = s.reads := rfl
@[simp] theorem State.withoutBusy_delay (s : State) : (s.withoutBusy).delay = s.delay := rfl
@[simp] theorem State.withoutBusy_issued (s : State) : (s.withoutBusy).issued = s.issued := rfl
@[simp] theorem State.withoutBusy_draws (s : State) : (s.withoutBusy).draws = s.draws := rfl

/-! ### completed -/

@[simp] theorem State.completed_cmd (s : State) : (s.completed).cmd = s.cmd := rfl
@[simp] theorem State.completed_arg0 (s : State) : (s.completed).arg0 = s.arg0 := rfl
@[simp] theorem State.completed_arg1 (s : State) : (s.completed).arg1 = s.arg1 := rfl
@[simp] theorem State.completed_status (s : State) : (s.completed).status = { s.status with err := false, ecode := .none, busy := false } := rfl
@[simp] theorem State.completed_result (s : State) : (s.completed).result = s.result := rfl
@[simp] theorem State.completed_bitcount (s : State) : (s.completed).bitcount = s.bitcount := rfl
@[simp] theorem State.completed_daddr (s : State) : (s.completed).daddr = s.daddr := rfl
@[simp] theorem State.completed_errinfo (s : State) : (s.completed).errinfo = s.errinfo := rfl
@[simp] theorem State.completed_storage (s : State) : (s.completed).storage = s.storage := rfl
@[simp] theorem State.completed_capacity (s : State) : (s.completed).capacity = s.capacity := rfl
@[simp] theorem State.completed_checks (s : State) : (s.completed).checks = s.checks := rfl
@[simp] theorem State.completed_inputs (s : State) : (s.completed).inputs = s.inputs := rfl
@[simp] theorem State.completed_reads (s : State) : (s.completed).reads = s.reads := rfl
@[simp] theorem State.completed_delay (s : State) : (s.completed).delay = s.delay := rfl
@[simp] theorem State.completed_issued (s : State) : (s.completed).issued = s.issued := rfl
@[simp] theorem State.completed_draws (s : State) : (s.completed).draws = s.draws := rfl

/-! ### fatalEntry -/

@[simp] theorem State.fatalEntry_cmd (s : State) (c : ECode) (o : Byte) (v : Word) : (s.fatalEntry c o v).cmd = s.cmd := rfl
@[simp] theorem State.fatalEntry_arg0 (s : State) (c : ECode) (o : Byte) (v : Word) : (s.fatalEntry c o v).arg0 = s.arg0 := rfl
@[simp] theorem State.fatalEntry_arg1 (s : State) (c : ECode) (o : Byte) (v : Word) : (s.fatalEntry c o v).arg1 = s.arg1 := rfl
@[simp] theorem State.fatalEntry_status (s : State) (c : ECode) (o : Byte) (v : Word) : (s.fatalEntry c o v).status = { s.status with fault := true, ecode := c, errop := o, err := false } := rfl
@[simp] theorem State.fatalEntry_result (s : State) (c : ECode) (o : Byte) (v : Word) : (s.fatalEntry c o v).result = s.result := rfl
@[simp] theorem State.fatalEntry_bitcount (s : State) (c : ECode) (o : Byte) (v : Word) : (s.fatalEntry c o v).bitcount = s.bitcount := rfl
@[simp] theorem State.fatalEntry_daddr (s : State) (c : ECode) (o : Byte) (v : Word) : (s.fatalEntry c o v).daddr = s.daddr := rfl
@[simp] theorem State.fatalEntry_errinfo (s : State) (c : ECode) (o : Byte) (v : Word) : (s.fatalEntry c o v).errinfo = v := rfl
@[simp] theorem State.fatalEntry_storage (s : State) (c : ECode) (o : Byte) (v : Word) : (s.fatalEntry c o v).storage = s.storage := rfl
@[simp] theorem State.fatalEntry_capacity (s : State) (c : ECode) (o : Byte) (v : Word) : (s.fatalEntry c o v).capacity = s.capacity := rfl
@[simp] theorem State.fatalEntry_checks (s : State) (c : ECode) (o : Byte) (v : Word) : (s.fatalEntry c o v).checks = s.checks := rfl
@[simp] theorem State.fatalEntry_inputs (s : State) (c : ECode) (o : Byte) (v : Word) : (s.fatalEntry c o v).inputs = s.inputs := rfl
@[simp] theorem State.fatalEntry_reads (s : State) (c : ECode) (o : Byte) (v : Word) : (s.fatalEntry c o v).reads = s.reads := rfl
@[simp] theorem State.fatalEntry_delay (s : State) (c : ECode) (o : Byte) (v : Word) : (s.fatalEntry c o v).delay = s.delay := rfl
@[simp] theorem State.fatalEntry_issued (s : State) (c : ECode) (o : Byte) (v : Word) : (s.fatalEntry c o v).issued = s.issued := rfl
@[simp] theorem State.fatalEntry_draws (s : State) (c : ECode) (o : Byte) (v : Word) : (s.fatalEntry c o v).draws = s.draws := rfl

/-! ### recoverableEntry -/

@[simp] theorem State.recoverableEntry_cmd (s : State) (c : ECode) (o : Byte) (v : Word) : (s.recoverableEntry c o v).cmd = s.cmd := rfl
@[simp] theorem State.recoverableEntry_arg0 (s : State) (c : ECode) (o : Byte) (v : Word) : (s.recoverableEntry c o v).arg0 = s.arg0 := rfl
@[simp] theorem State.recoverableEntry_arg1 (s : State) (c : ECode) (o : Byte) (v : Word) : (s.recoverableEntry c o v).arg1 = s.arg1 := rfl
@[simp] theorem State.recoverableEntry_status (s : State) (c : ECode) (o : Byte) (v : Word) : (s.recoverableEntry c o v).status = { s.status with err := true, ecode := c, errop := o, busy := false } := rfl
@[simp] theorem State.recoverableEntry_result (s : State) (c : ECode) (o : Byte) (v : Word) : (s.recoverableEntry c o v).result = s.result := rfl
@[simp] theorem State.recoverableEntry_bitcount (s : State) (c : ECode) (o : Byte) (v : Word) : (s.recoverableEntry c o v).bitcount = s.bitcount := rfl
@[simp] theorem State.recoverableEntry_daddr (s : State) (c : ECode) (o : Byte) (v : Word) : (s.recoverableEntry c o v).daddr = s.daddr := rfl
@[simp] theorem State.recoverableEntry_errinfo (s : State) (c : ECode) (o : Byte) (v : Word) : (s.recoverableEntry c o v).errinfo = v := rfl
@[simp] theorem State.recoverableEntry_storage (s : State) (c : ECode) (o : Byte) (v : Word) : (s.recoverableEntry c o v).storage = s.storage := rfl
@[simp] theorem State.recoverableEntry_capacity (s : State) (c : ECode) (o : Byte) (v : Word) : (s.recoverableEntry c o v).capacity = s.capacity := rfl
@[simp] theorem State.recoverableEntry_checks (s : State) (c : ECode) (o : Byte) (v : Word) : (s.recoverableEntry c o v).checks = s.checks := rfl
@[simp] theorem State.recoverableEntry_inputs (s : State) (c : ECode) (o : Byte) (v : Word) : (s.recoverableEntry c o v).inputs = s.inputs := rfl
@[simp] theorem State.recoverableEntry_reads (s : State) (c : ECode) (o : Byte) (v : Word) : (s.recoverableEntry c o v).reads = s.reads := rfl
@[simp] theorem State.recoverableEntry_delay (s : State) (c : ECode) (o : Byte) (v : Word) : (s.recoverableEntry c o v).delay = s.delay := rfl
@[simp] theorem State.recoverableEntry_issued (s : State) (c : ECode) (o : Byte) (v : Word) : (s.recoverableEntry c o v).issued = s.issued := rfl
@[simp] theorem State.recoverableEntry_draws (s : State) (c : ECode) (o : Byte) (v : Word) : (s.recoverableEntry c o v).draws = s.draws := rfl

/-! ### withResult -/

@[simp] theorem State.withResult_cmd (s : State) (v : Word) : (s.withResult v).cmd = s.cmd := rfl
@[simp] theorem State.withResult_arg0 (s : State) (v : Word) : (s.withResult v).arg0 = s.arg0 := rfl
@[simp] theorem State.withResult_arg1 (s : State) (v : Word) : (s.withResult v).arg1 = s.arg1 := rfl
@[simp] theorem State.withResult_status (s : State) (v : Word) : (s.withResult v).status = s.status := rfl
@[simp] theorem State.withResult_result (s : State) (v : Word) : (s.withResult v).result = v := rfl
@[simp] theorem State.withResult_bitcount (s : State) (v : Word) : (s.withResult v).bitcount = s.bitcount := rfl
@[simp] theorem State.withResult_daddr (s : State) (v : Word) : (s.withResult v).daddr = s.daddr := rfl
@[simp] theorem State.withResult_errinfo (s : State) (v : Word) : (s.withResult v).errinfo = s.errinfo := rfl
@[simp] theorem State.withResult_storage (s : State) (v : Word) : (s.withResult v).storage = s.storage := rfl
@[simp] theorem State.withResult_capacity (s : State) (v : Word) : (s.withResult v).capacity = s.capacity := rfl
@[simp] theorem State.withResult_checks (s : State) (v : Word) : (s.withResult v).checks = s.checks := rfl
@[simp] theorem State.withResult_inputs (s : State) (v : Word) : (s.withResult v).inputs = s.inputs := rfl
@[simp] theorem State.withResult_reads (s : State) (v : Word) : (s.withResult v).reads = s.reads := rfl
@[simp] theorem State.withResult_delay (s : State) (v : Word) : (s.withResult v).delay = s.delay := rfl
@[simp] theorem State.withResult_issued (s : State) (v : Word) : (s.withResult v).issued = s.issued := rfl
@[simp] theorem State.withResult_draws (s : State) (v : Word) : (s.withResult v).draws = s.draws := rfl

/-! ### withStorage -/

@[simp] theorem State.withStorage_cmd (s : State) (m : Memory) : (s.withStorage m).cmd = s.cmd := rfl
@[simp] theorem State.withStorage_arg0 (s : State) (m : Memory) : (s.withStorage m).arg0 = s.arg0 := rfl
@[simp] theorem State.withStorage_arg1 (s : State) (m : Memory) : (s.withStorage m).arg1 = s.arg1 := rfl
@[simp] theorem State.withStorage_status (s : State) (m : Memory) : (s.withStorage m).status = s.status := rfl
@[simp] theorem State.withStorage_result (s : State) (m : Memory) : (s.withStorage m).result = s.result := rfl
@[simp] theorem State.withStorage_bitcount (s : State) (m : Memory) : (s.withStorage m).bitcount = s.bitcount := rfl
@[simp] theorem State.withStorage_daddr (s : State) (m : Memory) : (s.withStorage m).daddr = s.daddr := rfl
@[simp] theorem State.withStorage_errinfo (s : State) (m : Memory) : (s.withStorage m).errinfo = s.errinfo := rfl
@[simp] theorem State.withStorage_storage (s : State) (m : Memory) : (s.withStorage m).storage = m := rfl
@[simp] theorem State.withStorage_capacity (s : State) (m : Memory) : (s.withStorage m).capacity = s.capacity := rfl
@[simp] theorem State.withStorage_checks (s : State) (m : Memory) : (s.withStorage m).checks = s.checks := rfl
@[simp] theorem State.withStorage_inputs (s : State) (m : Memory) : (s.withStorage m).inputs = s.inputs := rfl
@[simp] theorem State.withStorage_reads (s : State) (m : Memory) : (s.withStorage m).reads = s.reads := rfl
@[simp] theorem State.withStorage_delay (s : State) (m : Memory) : (s.withStorage m).delay = s.delay := rfl
@[simp] theorem State.withStorage_issued (s : State) (m : Memory) : (s.withStorage m).issued = s.issued := rfl
@[simp] theorem State.withStorage_draws (s : State) (m : Memory) : (s.withStorage m).draws = s.draws := rfl

/-! ### withBitcount -/

@[simp] theorem State.withBitcount_cmd (s : State) (c : Word) : (s.withBitcount c).cmd = s.cmd := rfl
@[simp] theorem State.withBitcount_arg0 (s : State) (c : Word) : (s.withBitcount c).arg0 = s.arg0 := rfl
@[simp] theorem State.withBitcount_arg1 (s : State) (c : Word) : (s.withBitcount c).arg1 = s.arg1 := rfl
@[simp] theorem State.withBitcount_status (s : State) (c : Word) : (s.withBitcount c).status = s.status := rfl
@[simp] theorem State.withBitcount_result (s : State) (c : Word) : (s.withBitcount c).result = s.result := rfl
@[simp] theorem State.withBitcount_bitcount (s : State) (c : Word) : (s.withBitcount c).bitcount = c := rfl
@[simp] theorem State.withBitcount_daddr (s : State) (c : Word) : (s.withBitcount c).daddr = s.daddr := rfl
@[simp] theorem State.withBitcount_errinfo (s : State) (c : Word) : (s.withBitcount c).errinfo = s.errinfo := rfl
@[simp] theorem State.withBitcount_storage (s : State) (c : Word) : (s.withBitcount c).storage = s.storage := rfl
@[simp] theorem State.withBitcount_capacity (s : State) (c : Word) : (s.withBitcount c).capacity = s.capacity := rfl
@[simp] theorem State.withBitcount_checks (s : State) (c : Word) : (s.withBitcount c).checks = s.checks := rfl
@[simp] theorem State.withBitcount_inputs (s : State) (c : Word) : (s.withBitcount c).inputs = s.inputs := rfl
@[simp] theorem State.withBitcount_reads (s : State) (c : Word) : (s.withBitcount c).reads = s.reads := rfl
@[simp] theorem State.withBitcount_delay (s : State) (c : Word) : (s.withBitcount c).delay = s.delay := rfl
@[simp] theorem State.withBitcount_issued (s : State) (c : Word) : (s.withBitcount c).issued = s.issued := rfl
@[simp] theorem State.withBitcount_draws (s : State) (c : Word) : (s.withBitcount c).draws = s.draws := rfl

/-! ### returning -/

@[simp] theorem State.returning_cmd (s : State) (v : Word) : (s.returning v).cmd = s.cmd := rfl
@[simp] theorem State.returning_arg0 (s : State) (v : Word) : (s.returning v).arg0 = s.arg0 := rfl
@[simp] theorem State.returning_arg1 (s : State) (v : Word) : (s.returning v).arg1 = s.arg1 := rfl
@[simp] theorem State.returning_status (s : State) (v : Word) : (s.returning v).status = s.status := rfl
@[simp] theorem State.returning_result (s : State) (v : Word) : (s.returning v).result = s.result := rfl
@[simp] theorem State.returning_bitcount (s : State) (v : Word) : (s.returning v).bitcount = s.bitcount := rfl
@[simp] theorem State.returning_daddr (s : State) (v : Word) : (s.returning v).daddr = s.daddr := rfl
@[simp] theorem State.returning_errinfo (s : State) (v : Word) : (s.returning v).errinfo = s.errinfo := rfl
@[simp] theorem State.returning_storage (s : State) (v : Word) : (s.returning v).storage = s.storage := rfl
@[simp] theorem State.returning_capacity (s : State) (v : Word) : (s.returning v).capacity = s.capacity := rfl
@[simp] theorem State.returning_checks (s : State) (v : Word) : (s.returning v).checks = s.checks := rfl
@[simp] theorem State.returning_inputs (s : State) (v : Word) : (s.returning v).inputs = s.inputs := rfl
@[simp] theorem State.returning_reads (s : State) (v : Word) : (s.returning v).reads = s.reads ++ [v] := rfl
@[simp] theorem State.returning_delay (s : State) (v : Word) : (s.returning v).delay = s.delay := rfl
@[simp] theorem State.returning_issued (s : State) (v : Word) : (s.returning v).issued = s.issued := rfl
@[simp] theorem State.returning_draws (s : State) (v : Word) : (s.returning v).draws = s.draws := rfl

/-! ### drawn -/

@[simp] theorem State.drawn_cmd (s : State) : (s.drawn).cmd = s.cmd := rfl
@[simp] theorem State.drawn_arg0 (s : State) : (s.drawn).arg0 = s.arg0 := rfl
@[simp] theorem State.drawn_arg1 (s : State) : (s.drawn).arg1 = s.arg1 := rfl
@[simp] theorem State.drawn_status (s : State) : (s.drawn).status = s.status := rfl
@[simp] theorem State.drawn_result (s : State) : (s.drawn).result = s.result := rfl
@[simp] theorem State.drawn_bitcount (s : State) : (s.drawn).bitcount = s.bitcount := rfl
@[simp] theorem State.drawn_daddr (s : State) : (s.drawn).daddr = s.daddr := rfl
@[simp] theorem State.drawn_errinfo (s : State) : (s.drawn).errinfo = s.errinfo := rfl
@[simp] theorem State.drawn_storage (s : State) : (s.drawn).storage = s.storage := rfl
@[simp] theorem State.drawn_capacity (s : State) : (s.drawn).capacity = s.capacity := rfl
@[simp] theorem State.drawn_checks (s : State) : (s.drawn).checks = s.checks := rfl
@[simp] theorem State.drawn_inputs (s : State) : (s.drawn).inputs = s.inputs := rfl
@[simp] theorem State.drawn_reads (s : State) : (s.drawn).reads = s.reads := rfl
@[simp] theorem State.drawn_delay (s : State) : (s.drawn).delay = s.delay := rfl
@[simp] theorem State.drawn_issued (s : State) : (s.drawn).issued = s.issued := rfl
@[simp] theorem State.drawn_draws (s : State) : (s.drawn).draws = s.draws + 1 := rfl

/-! ### daddrNext -/

@[simp] theorem State.daddrNext_cmd (s : State) : (s.daddrNext).cmd = s.cmd := rfl
@[simp] theorem State.daddrNext_arg0 (s : State) : (s.daddrNext).arg0 = s.arg0 := rfl
@[simp] theorem State.daddrNext_arg1 (s : State) : (s.daddrNext).arg1 = s.arg1 := rfl
@[simp] theorem State.daddrNext_status (s : State) : (s.daddrNext).status = s.status := rfl
@[simp] theorem State.daddrNext_result (s : State) : (s.daddrNext).result = s.result := rfl
@[simp] theorem State.daddrNext_bitcount (s : State) : (s.daddrNext).bitcount = s.bitcount := rfl
@[simp] theorem State.daddrNext_daddr (s : State) : (s.daddrNext).daddr = s.daddr + 1#32 := rfl
@[simp] theorem State.daddrNext_errinfo (s : State) : (s.daddrNext).errinfo = s.errinfo := rfl
@[simp] theorem State.daddrNext_storage (s : State) : (s.daddrNext).storage = s.storage := rfl
@[simp] theorem State.daddrNext_capacity (s : State) : (s.daddrNext).capacity = s.capacity := rfl
@[simp] theorem State.daddrNext_checks (s : State) : (s.daddrNext).checks = s.checks := rfl
@[simp] theorem State.daddrNext_inputs (s : State) : (s.daddrNext).inputs = s.inputs := rfl
@[simp] theorem State.daddrNext_reads (s : State) : (s.daddrNext).reads = s.reads := rfl
@[simp] theorem State.daddrNext_delay (s : State) : (s.daddrNext).delay = s.delay := rfl
@[simp] theorem State.daddrNext_issued (s : State) : (s.daddrNext).issued = s.issued := rfl
@[simp] theorem State.daddrNext_draws (s : State) : (s.daddrNext).draws = s.draws := rfl

/-! ### waited -/

@[simp] theorem State.waited_cmd (s : State) : (s.waited).cmd = s.cmd := rfl
@[simp] theorem State.waited_arg0 (s : State) : (s.waited).arg0 = s.arg0 := rfl
@[simp] theorem State.waited_arg1 (s : State) : (s.waited).arg1 = s.arg1 := rfl
@[simp] theorem State.waited_status (s : State) : (s.waited).status = s.status := rfl
@[simp] theorem State.waited_result (s : State) : (s.waited).result = s.result := rfl
@[simp] theorem State.waited_bitcount (s : State) : (s.waited).bitcount = s.bitcount := rfl
@[simp] theorem State.waited_daddr (s : State) : (s.waited).daddr = s.daddr := rfl
@[simp] theorem State.waited_errinfo (s : State) : (s.waited).errinfo = s.errinfo := rfl
@[simp] theorem State.waited_storage (s : State) : (s.waited).storage = s.storage := rfl
@[simp] theorem State.waited_capacity (s : State) : (s.waited).capacity = s.capacity := rfl
@[simp] theorem State.waited_checks (s : State) : (s.waited).checks = s.checks := rfl
@[simp] theorem State.waited_inputs (s : State) : (s.waited).inputs = s.inputs := rfl
@[simp] theorem State.waited_reads (s : State) : (s.waited).reads = s.reads := rfl
@[simp] theorem State.waited_delay (s : State) : (s.waited).delay = if s.status.busy then s.delay - 1 else s.delay := rfl
@[simp] theorem State.waited_issued (s : State) : (s.waited).issued = s.issued := rfl
@[simp] theorem State.waited_draws (s : State) : (s.waited).draws = s.draws := rfl

/-! ### Resetting, the bit count and the vector bits -/

@[simp] theorem State.resetOf_n (c : Word) (k : Checks) : (State.resetOf c k).n = 0 := rfl

@[simp] theorem State.afterReset_n (s : State) : s.afterReset.n = 0 := rfl

@[simp] theorem State.afterReset_status (s : State) : s.afterReset.status = Status.reset := rfl

@[simp] theorem State.afterReset_storage (s : State) : s.afterReset.storage = [] := rfl

@[simp] theorem State.afterReset_capacity (s : State) : s.afterReset.capacity = s.capacity := rfl

@[simp] theorem State.afterReset_checks (s : State) : s.afterReset.checks = s.checks := rfl

theorem State.n_eq (s : State) : s.n = s.bitcount.toNat := rfl

theorem State.maxBits_eq (s : State) : s.maxBits = s.capacity.toNat := rfl

theorem State.bit_eq (s : State) (i : Nat) : s.bit i = s.storage.bit i := rfl

theorem State.n_lt (s : State) : s.n < 2 ^ 32 := s.bitcount.isLt

/-! ### The ends of a command, as the claims write them -/

theorem State.completed_eq_succeeded (s : State) : s.completed = s.succeeded := rfl

theorem State.fatalEntry_withoutBusy (s : State) (c : ECode) (o : Byte) (v : Word) :
    s.withoutBusy.fatalEntry c o v = s.haltedBy c o v := rfl

theorem State.recoverableEntry_eq_reportedBy (s : State) (c : ECode) (o : Byte) (v : Word) :
    s.recoverableEntry c o v = s.reportedBy c o v := rfl

end Sys2Proof.Machine
end

