-- ==== Sys2Proof/Laws/StorageCore.lean ====
section
/-! SUPPORT. The storage operations of CREATE and RESIZE. -/

namespace Sys2Proof.Machine

theorem Memory.writeByte_zero (m : Memory) (k : Nat) : m.writeByte k 0x00#8 = m.zeroRange k (k + 1) := by
  unfold Memory.writeByte Memory.zeroRange
  simp only [if_true]
  refine List.filter_congr fun c _ => ?_
  by_cases h : c.1 = k
  · simp [h]
  · have : ¬ (k ≤ c.1 ∧ c.1 < k + 1) := by omega
    simp only [bne_iff_ne, ne_eq, h, not_false_eq_true, ← Bool.decide_and, this, decide_false, Bool.not_false]

/-- CREATE's fill is the loop of R152. -/
theorem zeroFill_eq_loop (c : Nat) (m : Memory) :
    zeroFill c m = forUp 0 (nbytes c) (fun k m => m.writeByte k 0x00#8) m := by
  have key := forUp_induct (body := fun k (m : Memory) => m.writeByte k 0x00#8)
    (fun k m' => m' = m.zeroRange 0 k) (lo := 0) (count := nbytes c) (a := m)
    (by simp [Memory.zeroRange])
    (fun k m' _ _ ih => by
      subst ih
      rw [Memory.writeByte_zero]
      unfold Memory.zeroRange
      rw [List.filter_filter]
      refine List.filter_congr fun d _ => ?_
      by_cases h : d.1 < k
      · have h2 : d.1 < k + 1 := by omega
        simp [h, h2]
      · by_cases h3 : d.1 < k + 1
        · have : k ≤ d.1 := by omega
          simp [h3, this]
        · simp [h, h3])
  rw [Nat.zero_add] at key
  exact key.symm

theorem bit_zeroFill (c : Nat) (m : Memory) (j : Nat) :
    (zeroFill c m).bit j = if j / 8 < nbytes c then false else m.bit j := by
  rw [zeroFill, Memory.bit_zeroRange]
  simp

theorem readByte_zeroFill (c : Nat) (m : Memory) (k : Nat) :
    (zeroFill c m).readByte k = if k < nbytes c then 0x00#8 else m.readByte k := by
  rw [zeroFill, Memory.readByte_zeroRange]
  simp

/-- RESIZE's loop clears the bits `old .. c - 1` and no other position (R156). -/
theorem bit_clearGrowth (old c : Nat) (m : Memory) (j : Nat) :
    (clearGrowth old c m).bit j = if old ≤ j ∧ j < c then false else m.bit j := by
  have key := forUp_induct (body := fun i (m : Memory) => m.writeBit i false)
    (fun k m' => ∀ j, Memory.bit m' j = if old ≤ j ∧ j < k then false else m.bit j)
    (lo := old) (count := c - old) (a := m)
    (fun j => by rw [if_neg (by omega)])
    (fun k m' h1 _ ih j => by
      rw [Memory.bit_writeBit, ih j]
      by_cases hj : j = k
      · rw [if_pos hj, if_pos (by omega)]
      · rw [if_neg hj]
        by_cases h : old ≤ j ∧ j < k
        · rw [if_pos h, if_pos (by omega)]
        · rw [if_neg h, if_neg (by omega)])
  unfold clearGrowth
  rw [key j]
  refine ite_congr (propext ?_) (fun _ => rfl) (fun _ => rfl)
  omega

theorem readByte_clearGrowth (old c : Nat) (m : Memory) {k : Nat} (h : k < old / 8 ∨ nbytes c ≤ k) :
    (clearGrowth old c m).readByte k = m.readByte k :=
  Memory.readByte_eq_of_bits fun j hj => by
    rw [bit_clearGrowth, if_neg (by unfold nbytes at h; omega)]

/-- A property that writes to existing bytes keep, RESIZE's loop keeps. -/
theorem clearGrowth_keeps (P : Memory → Prop) {old c : Nat} {m : Memory} (first : P m)
    (write : ∀ m k v, k < nbytes c → P m → P (Memory.writeByte m k v)) : P (clearGrowth old c m) :=
  forUp_keeps P first fun i m' _ hi hp => write _ _ _ (by unfold nbytes; omega) hp

theorem wf_clearGrowth {old c : Nat} {m : Memory} (h : m.wf) : (clearGrowth old c m).wf :=
  clearGrowth_keeps _ h fun _ _ _ _ => Memory.wf_writeByte _ _

theorem below_clearGrowth {old c bound : Nat} {m : Memory} (h : m.below bound) (hc : nbytes c ≤ bound) :
    (clearGrowth old c m).below bound :=
  clearGrowth_keeps _ h fun _ _ _ hk hp => Memory.below_writeByte _ hp (by omega)

theorem wf_zeroFill {c : Nat} {m : Memory} (h : m.wf) : (zeroFill c m).wf := Memory.wf_zeroRange _ _ h

theorem below_zeroFill {c bound : Nat} {m : Memory} (h : m.below bound) : (zeroFill c m).below bound :=
  Memory.below_zeroRange _ _ h

theorem nbytes_mono {a b : Nat} (h : a ≤ b) : nbytes a ≤ nbytes b := by unfold nbytes; omega

end Sys2Proof.Machine
end

