-- ==== Sys2Proof/Laws/Exec.lean ====
section
/-! SUPPORT. What the shared checks and ends of a command can do, and the one case analysis of `exec`: a command halts the
block, reports, or runs its body and succeeds. -/

namespace Sys2Proof.Machine

/-! ### Ends -/

theorem raiseFatal_checked {s : State} (h : s.checks = .checked) (c : ECode) (o : Byte) (v : Word) :
    raiseFatal c o v s = .next (s.fatalEntry c o v) := by simp [raiseFatal, h]

theorem raiseFatal_unchecked {s : State} (h : s.checks = .unchecked) (c : ECode) (o : Byte) (v : Word) :
    raiseFatal c o v s = .refused .uncheckedBuild := by simp [raiseFatal, h]

theorem raiseFatal_next {s t : State} {c : ECode} {o : Byte} {v : Word} (h : raiseFatal c o v s = .next t) :
    s.checks = .checked ∧ t = s.fatalEntry c o v := by
  unfold raiseFatal at h
  split at h
  · rename_i hc
    exact ⟨hc, by injection h with h; exact h.symm⟩
  · cases h

theorem commandFatal_checked {s : State} (h : s.checks = .checked) (i : Instr) (c : ECode) (v : Word) :
    commandFatal i c v s = .next (s.haltedBy c (opcode i) v) :=
  raiseFatal_checked (s := s.withoutBusy) h c _ v

theorem commandFatal_unchecked {s : State} (h : s.checks = .unchecked) (i : Instr) (c : ECode) (v : Word) :
    commandFatal i c v s = .refused .uncheckedBuild :=
  raiseFatal_unchecked (s := s.withoutBusy) h c _ v

theorem commandFatal_next {s t : State} {i : Instr} {c : ECode} {v : Word} (h : commandFatal i c v s = .next t) :
    s.checks = .checked ∧ t = s.haltedBy c (opcode i) v :=
  raiseFatal_next (s := s.withoutBusy) h

theorem commandFatal_ne_fault {s : State} {i : Instr} {c : ECode} {v : Word} {f : Fault} :
    commandFatal i c v s ≠ .fault f := by
  unfold commandFatal raiseFatal
  split <;> simp

theorem commandRecoverable_eq (i : Instr) (c : ECode) (v : Word) (s : State) :
    commandRecoverable i c v s = .next (s.reportedBy c (opcode i) v) := rfl

theorem complete_eq (s : State) : complete s = .next s.succeeded := rfl

/-! ### Checks that pass and checks that do not -/

theorem checkInstance_pass {s : State} (h : s.status.valid = true) (i : Instr) (k : Result) :
    checkInstance i s k = k := by simp [checkInstance, h]

theorem checkInstance_fail {s : State} (h : s.status.valid = false) (i : Instr) (k : Result) :
    checkInstance i s k = commandFatal i .noInstance 0#32 s := by simp [checkInstance, h]

theorem checkIndex_pass {s : State} {x : Word} (h : x.toNat < s.n) (i : Instr) (k : Result) :
    checkIndex i x s k = k := if_pos h

theorem checkIndex_fail {s : State} {x : Word} (h : s.n ≤ x.toNat) (i : Instr) (k : Result) :
    checkIndex i x s k = commandFatal i .indexOutOfRange x s := if_neg (by omega)

theorem checkNonempty_pass {s : State} (h : s.n ≠ 0) (i : Instr) (k : Result) : checkNonempty i s k = k := if_neg h

theorem checkNonempty_fail {s : State} (h : s.n = 0) (i : Instr) (k : Result) :
    checkNonempty i s k = commandFatal i .indexOutOfRange 0#32 s := if_pos h

theorem checkCapacity_pass {s : State} {c : Word} (h : c.toNat ≤ s.maxBits) (i : Instr) (k : Result) :
    checkCapacity i c s k = k := if_neg (by omega)

theorem checkCapacity_fail {s : State} {c : Word} (h : s.maxBits < c.toNat) (i : Instr) (k : Result) :
    checkCapacity i c s k = commandRecoverable i .allocationFailure c s := if_pos h

theorem checkStorage_pass {s : State} (h : s.storageFits = true) (k : Result) : checkStorage s k = k := if_pos h

theorem checkStorage_fail {s : State} (h : s.storageFits = false) (k : Result) :
    checkStorage s k = .fault .storageHole := if_neg (by simp [h])

/-- The invariant of R33 makes the in-use bytes exist. -/
theorem storageFits_of_le {s : State} (h : s.n ≤ s.maxBits) : s.storageFits = true := by
  simp only [State.storageFits, decide_eq_true_eq]
  exact nbytes_mono h

/-! ### The one case analysis of exec -/

/-- What the commands ask of the state before their body runs (60_exceptions.md R278). -/
def bodyRuns (i : Instr) (s : State) : Prop :=
  match i with
  | .nop => True
  | .create => s.arg0.toNat ≤ s.maxBits
  | .resize => s.status.valid = true ∧ s.arg0.toNat ≤ s.maxBits
  | .destroy => s.status.valid = true
  | .get | .set | .clear | .toggle => s.status.valid = true ∧ s.arg0.toNat < s.n ∧ s.storageFits = true
  | .setRegion | .clearRegion | .toggleRegion =>
    s.status.valid = true ∧ s.arg0.toNat < s.n ∧ s.arg1.toNat < s.n ∧ s.storageFits = true
  | .setAll | .clearAll | .toggleAll => s.status.valid = true ∧ s.n ≠ 0 ∧ s.storageFits = true
  | .countSet | .countClear => s.status.valid = true ∧ s.storageFits = true
  | .findNextClear | .findNextSet | .findPrevClear | .findPrevSet =>
    s.status.valid = true ∧ s.arg0.toNat < s.n ∧ s.storageFits = true
  | .firstClear | .firstSet | .lastClear | .lastSet => s.status.valid = true ∧ s.n ≠ 0 ∧ s.storageFits = true

/-- The storage a region command leaves. -/
def regionStorage (op : RegionKind) (s : State) : Memory :=
  regionOp op (min s.arg0.toNat s.arg1.toNat) (max s.arg0.toNat s.arg1.toNat) s.storage

/-- The state a command's body leaves, before its success is recorded. -/
def bodyState (i : Instr) (s : State) : State :=
  match i with
  | .nop => s
  | .create => ((s.withStorage (zeroFill s.arg0.toNat s.storage)).withBitcount s.arg0).withValid true
  | .resize => (s.withStorage (clearGrowth s.n s.arg0.toNat s.storage)).withBitcount s.arg0
  | .destroy => (s.withValid false).withBitcount 0#32
  | .get => s.withResult (zextBit (s.storage.bit s.arg0.toNat))
  | .set => s.withStorage (s.storage.writeBit s.arg0.toNat true)
  | .clear => s.withStorage (s.storage.writeBit s.arg0.toNat false)
  | .toggle => s.withStorage (s.storage.writeBit s.arg0.toNat (!s.storage.bit s.arg0.toNat))
  | .setRegion => s.withStorage (regionStorage .set s)
  | .clearRegion => s.withStorage (regionStorage .clear s)
  | .toggleRegion => s.withStorage (regionStorage .toggle s)
  | .setAll => s.withStorage (regionOp .set 0 (s.n - 1) s.storage)
  | .clearAll => s.withStorage (regionOp .clear 0 (s.n - 1) s.storage)
  | .toggleAll => s.withStorage (regionOp .toggle 0 (s.n - 1) s.storage)
  | .countSet => s.withResult (BitVec.ofNat 32 (countSet s.n s.storage))
  | .countClear => s.withResult (BitVec.ofNat 32 (s.n - countSet s.n s.storage))
  | .findNextClear => s.withSearch (findNext false s.n s.arg0.toNat s.storage)
  | .findNextSet => s.withSearch (findNext true s.n s.arg0.toNat s.storage)
  | .findPrevClear => s.withSearch (findPrev false s.arg0.toNat s.storage)
  | .findPrevSet => s.withSearch (findPrev true s.arg0.toNat s.storage)
  | .firstClear => s.withSearch (findNext false s.n 0 s.storage)
  | .firstSet => s.withSearch (findNext true s.n 0 s.storage)
  | .lastClear => s.withSearch (findPrev false (s.n - 1) s.storage)
  | .lastSet => s.withSearch (findPrev true (s.n - 1) s.storage)

/-- A command whose checks pass runs its body and succeeds. -/
theorem exec_of_bodyRuns {i : Instr} {s : State} (h : bodyRuns i s) : exec i s = .next (bodyState i s).succeeded := by
  cases i <;> simp only [bodyRuns] at h <;>
    simp only [exec, bodyState, execNop, execCreate, execResize, execDestroy, execGet, execSet, execClear, execToggle,
      execSetRegion, execClearRegion, execToggleRegion, execSetAll, execClearAll, execToggleAll, execCountSet,
      execCountClear, execFindNextClear, execFindNextSet, execFindPrevClear, execFindPrevSet, execFirstClear,
      execFirstSet, execLastClear, execLastSet, bitCommand, regionCommand, wholeCommand, findCommand, anchoredCommand,
      checkInstance, checkIndex, checkNonempty, checkCapacity, checkStorage, h, if_true, if_false, complete_eq,
      regionStorage]
  case create => rw [if_neg (by omega)]
  case resize => rw [if_neg (by omega)]

/-- How a command can end: with a fatal failure, with the recoverable failure of CREATE and RESIZE, by running past the
end of the storage, or with its body done. -/
theorem exec_cases (i : Instr) (s : State) :
    (∃ c v, (c = .indexOutOfRange ∨ c = .noInstance) ∧ exec i s = commandFatal i c v s) ∨
    ((i = .create ∨ i = .resize) ∧ s.maxBits < s.arg0.toNat ∧
      exec i s = .next (s.reportedBy .allocationFailure (opcode i) s.arg0)) ∨
    (s.storageFits = false ∧ exec i s = .fault .storageHole) ∨
    (bodyRuns i s ∧ exec i s = .next (bodyState i s).succeeded) := by
  by_cases hb : bodyRuns i s
  · exact .inr (.inr (.inr ⟨hb, exec_of_bodyRuns hb⟩))
  have inst : ∀ k, s.status.valid = false → checkInstance i s k = commandFatal i .noInstance 0#32 s :=
    fun k h => checkInstance_fail h i k
  cases i <;> simp only [bodyRuns] at hb
  case nop => exact absurd trivial hb
  case create =>
    exact .inr (.inl ⟨.inl rfl, by omega, by
      show execCreate s = _
      rw [execCreate, checkCapacity_fail (by omega)]; rfl⟩)
  case resize =>
    cases hv : s.status.valid
    · exact .inl ⟨_, _, .inr rfl, inst _ hv⟩
    · exact .inr (.inl ⟨.inr rfl, by simp [hv] at hb; omega, by
        show execResize s = _
        rw [execResize, checkInstance_pass hv, checkCapacity_fail (by simp [hv] at hb; omega)]; rfl⟩)
  case destroy =>
    cases hv : s.status.valid
    · exact .inl ⟨_, _, .inr rfl, inst _ hv⟩
    · exact absurd hv hb
  case countSet | countClear =>
    cases hv : s.status.valid
    · exact .inl ⟨_, _, .inr rfl, inst _ hv⟩
    · have hf : s.storageFits = false := by simpa [hv] using hb
      exact .inr (.inr (.inl ⟨hf, (checkInstance_pass hv _ _).trans (checkStorage_fail hf _)⟩))
  case setAll | clearAll | toggleAll | firstClear | firstSet | lastClear | lastSet =>
    cases hv : s.status.valid
    · exact .inl ⟨_, _, .inr rfl, inst _ hv⟩
    · by_cases hn : s.n = 0
      · exact .inl ⟨_, _, .inl rfl, (checkInstance_pass hv _ _).trans (checkNonempty_fail hn _ _)⟩
      · have hf : s.storageFits = false := by simpa [hv, hn] using hb
        exact .inr (.inr (.inl ⟨hf, (checkInstance_pass hv _ _).trans
          ((checkNonempty_pass hn _ _).trans (checkStorage_fail hf _))⟩))
  case get | set | clear | toggle | findNextClear | findNextSet | findPrevClear | findPrevSet =>
    cases hv : s.status.valid
    · exact .inl ⟨_, _, .inr rfl, inst _ hv⟩
    · by_cases hn : s.arg0.toNat < s.n
      · have hf : s.storageFits = false := by simpa [hv, hn] using hb
        exact .inr (.inr (.inl ⟨hf, (checkInstance_pass hv _ _).trans
          ((checkIndex_pass hn _ _).trans (checkStorage_fail hf _))⟩))
      · exact .inl ⟨_, _, .inl rfl, (checkInstance_pass hv _ _).trans (checkIndex_fail (by omega) _ _)⟩
  case setRegion | clearRegion | toggleRegion =>
    cases hv : s.status.valid
    · exact .inl ⟨_, _, .inr rfl, inst _ hv⟩
    · by_cases hn : s.arg0.toNat < s.n
      · by_cases hm : s.arg1.toNat < s.n
        · have hf : s.storageFits = false := by simpa [hv, hn, hm] using hb
          exact .inr (.inr (.inl ⟨hf, (checkInstance_pass hv _ _).trans
            ((checkIndex_pass hn _ _).trans ((checkIndex_pass hm _ _).trans (checkStorage_fail hf _)))⟩))
        · exact .inl ⟨_, _, .inl rfl, (checkInstance_pass hv _ _).trans
            ((checkIndex_pass hn _ _).trans (checkIndex_fail (by omega) _ _))⟩
      · exact .inl ⟨_, _, .inl rfl, (checkInstance_pass hv _ _).trans (checkIndex_fail (by omega) _ _)⟩

/-- If a command answers a next state, it is one of three. -/
theorem exec_next {i : Instr} {s t : State} (h : exec i s = .next t) :
    (s.checks = .checked ∧ ∃ c v, (c = .indexOutOfRange ∨ c = .noInstance) ∧ t = s.haltedBy c (opcode i) v) ∨
    ((i = .create ∨ i = .resize) ∧ s.maxBits < s.arg0.toNat ∧
      t = s.reportedBy .allocationFailure (opcode i) s.arg0) ∨
    (bodyRuns i s ∧ t = (bodyState i s).succeeded) := by
  rcases exec_cases i s with ⟨c, v, hc, e⟩ | ⟨hi, hlt, e⟩ | ⟨-, e⟩ | ⟨hb, e⟩ <;> rw [e] at h
  · exact .inl ⟨(commandFatal_next h).1, c, v, hc, (commandFatal_next h).2⟩
  · exact .inr (.inl ⟨hi, hlt, by injection h with h; exact h.symm⟩)
  · cases h
  · exact .inr (.inr ⟨hb, by injection h with h; exact h.symm⟩)

/-! ### What a body leaves alone -/

/-- The fields no body writes. -/
theorem bodyState_frame (i : Instr) (s : State) :
    bodyState i s = { s with
      status := { s.status with valid := (bodyState i s).status.valid, found := (bodyState i s).status.found }
      result := (bodyState i s).result
      bitcount := (bodyState i s).bitcount
      storage := (bodyState i s).storage } := by
  cases i <;> first | rfl | (simp only [bodyState, State.withSearch]; split <;> rfl)

@[simp] theorem State.withSearch_storage (s : State) (r : Option Nat) : (s.withSearch r).storage = s.storage := by
  cases r <;> rfl

@[simp] theorem State.withSearch_bitcount (s : State) (r : Option Nat) : (s.withSearch r).bitcount = s.bitcount := by
  cases r <;> rfl

@[simp] theorem State.withSearch_valid (s : State) (r : Option Nat) : (s.withSearch r).status.valid = s.status.valid := by
  cases r <;> rfl

end Sys2Proof.Machine
end

