-- ==== Sys2Proof/Laws/PerInstr.lean ====
section
/-! SUPPORT. Facts about every command as syntax, one lemma per constructor. -/

namespace Sys2Proof.Laws.EncodingFields

/-- The command is well formed, and its word has RESV = 0 and a CLASS that is not reserved (30_encoding.md R111). -/
def Statement (i : Instr) : Prop :=
  i.wf = true ∧ fieldResv (encode i) = 0#24 ∧ (fieldClass (encode i)).toNat < 6

theorem nop : Statement .nop := ⟨rfl, rfl, by decide⟩

theorem create : Statement .create := ⟨rfl, rfl, by decide⟩

theorem resize : Statement .resize := ⟨rfl, rfl, by decide⟩

theorem destroy : Statement .destroy := ⟨rfl, rfl, by decide⟩

theorem get : Statement .get := ⟨rfl, rfl, by decide⟩

theorem set : Statement .set := ⟨rfl, rfl, by decide⟩

theorem clear : Statement .clear := ⟨rfl, rfl, by decide⟩

theorem toggle : Statement .toggle := ⟨rfl, rfl, by decide⟩

theorem setRegion : Statement .setRegion := ⟨rfl, rfl, by decide⟩

theorem clearRegion : Statement .clearRegion := ⟨rfl, rfl, by decide⟩

theorem toggleRegion : Statement .toggleRegion := ⟨rfl, rfl, by decide⟩

theorem setAll : Statement .setAll := ⟨rfl, rfl, by decide⟩

theorem clearAll : Statement .clearAll := ⟨rfl, rfl, by decide⟩

theorem toggleAll : Statement .toggleAll := ⟨rfl, rfl, by decide⟩

theorem countSet : Statement .countSet := ⟨rfl, rfl, by decide⟩

theorem countClear : Statement .countClear := ⟨rfl, rfl, by decide⟩

theorem findNextClear : Statement .findNextClear := ⟨rfl, rfl, by decide⟩

theorem findNextSet : Statement .findNextSet := ⟨rfl, rfl, by decide⟩

theorem findPrevClear : Statement .findPrevClear := ⟨rfl, rfl, by decide⟩

theorem findPrevSet : Statement .findPrevSet := ⟨rfl, rfl, by decide⟩

theorem firstClear : Statement .firstClear := ⟨rfl, rfl, by decide⟩

theorem firstSet : Statement .firstSet := ⟨rfl, rfl, by decide⟩

theorem lastClear : Statement .lastClear := ⟨rfl, rfl, by decide⟩

theorem lastSet : Statement .lastSet := ⟨rfl, rfl, by decide⟩

end Sys2Proof.Laws.EncodingFields
end

