-- ==== Sys2Proof/Laws/Port.lean ====
section
/-! SUPPORT. What a port access and the engine's step can do, and who moves next. -/

namespace Sys2Proof.Machine

/-! ### Who moves -/

/-- The engine moves exactly when a command is pending and no unheld input comes before it (20_memory.md R85, R87). -/
theorem nextMove_engine_iff (s : State) : nextMove s = .engine ↔
    s.status.busy = true ∧ (s.inputs = [] ∨ s.delay = 0 ∨ ∃ x rest, s.inputs = x :: rest ∧ x.held = true) := by
  unfold nextMove
  cases hi : s.inputs with
  | nil => cases s.status.busy <;> simp
  | cons x rest =>
    cases hb : s.status.busy <;> cases hx : x.held <;> by_cases hd : s.delay = 0 <;> simp [hx, hd]

theorem nextMove_input_iff (s : State) (x : Input) (rest : List Input) : nextMove s = .input x rest ↔
    s.inputs = x :: rest ∧ (s.status.busy = true → x.held = false ∧ s.delay ≠ 0) := by
  unfold nextMove
  cases hi : s.inputs with
  | nil => cases s.status.busy <;> simp
  | cons y ys =>
    dsimp only
    by_cases hc : (s.status.busy && (y.held || s.delay == 0)) = true
    · rw [if_pos hc]
      refine ⟨fun h => (by cases h), fun ⟨e, h⟩ => ?_⟩
      cases e
      simp only [Bool.and_eq_true, Bool.or_eq_true, beq_iff_eq] at hc
      obtain ⟨h1, h2⟩ := h hc.1
      simp [h1, h2] at hc
    · rw [if_neg hc]
      refine ⟨fun h => ?_, fun ⟨e, _⟩ => by cases e; rfl⟩
      cases h
      refine ⟨rfl, fun hb => ?_⟩
      simpa [hb] using hc

theorem nextMove_idle_iff (s : State) : nextMove s = .idle ↔ s.inputs = [] ∧ s.status.busy = false := by
  unfold nextMove
  cases hi : s.inputs with
  | nil => cases s.status.busy <;> simp
  | cons y ys =>
    cases hb : (s.status.busy && (y.held || s.delay == 0)) <;> simp only [hb, if_true, if_false, Bool.false_eq_true] <;>
      simp

theorem step_engine {s : State} (h : nextMove s = .engine) : step s = engineStep s := by simp [step, h]

theorem step_input {s : State} {x : Input} {rest : List Input} (h : nextMove s = .input x rest) :
    step s = takeInput x rest s := by simp [step, h]

theorem step_idle {s : State} (h : nextMove s = .idle) : step s = .next s := by simp [step, h]

/-- One step is the engine's, or one input's, or nothing. -/
theorem step_cases (s : State) :
    (s.status.busy = true ∧ step s = engineStep s) ∨
    (∃ x rest, s.inputs = x :: rest ∧ (s.status.busy = true → x.held = false ∧ s.delay ≠ 0) ∧
      step s = takeInput x rest s) ∨
    (s.inputs = [] ∧ s.status.busy = false ∧ step s = .next s) := by
  cases h : nextMove s with
  | engine => exact .inl ⟨((nextMove_engine_iff s).mp h).1, step_engine h⟩
  | input x rest =>
    have := (nextMove_input_iff s x rest).mp h
    exact .inr (.inl ⟨x, rest, this.1, this.2, step_input h⟩)
  | idle =>
    have := (nextMove_idle_iff s).mp h
    exact .inr (.inr ⟨this.1, this.2, step_idle h⟩)

/-- An idle block takes the first input. -/
theorem step_of_idle {s : State} {x : Input} {rest : List Input} (hb : s.status.busy = false)
    (hi : s.inputs = x :: rest) : step s = takeInput x rest s :=
  step_input ((nextMove_input_iff s x rest).mpr ⟨hi, by simp [hb]⟩)

/-! ### The engine -/

theorem engineStep_ok {s : State} {i : Instr} (h : decode s.cmd = .ok i) : engineStep s = exec i s := by
  simp [engineStep, h]

theorem engineStep_error {s : State} {e : Illegal} (h : decode s.cmd = .error e) :
    engineStep s = raiseFatal .illegalCommand (opcodeByte s.cmd) s.cmd s.withoutBusy := by
  simp [engineStep, h]

/-- The engine's step, if it answers a next state: a halt, a report, or a command's body done. -/
theorem engineStep_next {s t : State} (h : engineStep s = .next t) :
    (s.checks = .checked ∧ ∃ c o v, c.fatal = true ∧ t = s.haltedBy c o v) ∨
    (∃ o v, t = s.reportedBy .allocationFailure o v) ∨
    (∃ i, decode s.cmd = .ok i ∧ bodyRuns i s ∧ t = (bodyState i s).succeeded) := by
  cases hd : decode s.cmd with
  | ok i =>
    rw [engineStep_ok hd] at h
    rcases exec_next h with ⟨hc, c, v, hf, rfl⟩ | ⟨-, -, rfl⟩ | ⟨hb, rfl⟩
    · exact .inl ⟨hc, c, _, v, by rcases hf with rfl | rfl <;> rfl, rfl⟩
    · exact .inr (.inl ⟨_, _, rfl⟩)
    · exact .inr (.inr ⟨i, rfl, hb, rfl⟩)
  | error e =>
    rw [engineStep_error hd] at h
    obtain ⟨hc, rfl⟩ := raiseFatal_next h
    exact .inl ⟨hc, _, _, _, rfl, rfl⟩

/-- With nothing pending an input does not touch the delay. -/
theorem State.waited_of_idle {s : State} (h : s.status.busy = false) : s.waited = s := by
  simp [State.waited, h]

/-! ### DATA -/

theorem dataRead_halted {s : State} (hf : s.status.fault = true) :
    dataRead s = .next (s.drawn.returning ((Config.freeByte s.draws).setWidth 32)) := by
  simp [dataRead, hf]

theorem dataRead_noInstance {s : State} (hf : s.status.fault = false) (hv : s.status.valid = false) :
    dataRead s = raiseFatal .noInstance dataReadOp s.daddr
      (s.drawn.returning ((Config.freeByte s.draws).setWidth 32)) := by
  simp [dataRead, hf, hv]

theorem dataRead_outOfRange {s : State} (hf : s.status.fault = false) (hv : s.status.valid = true)
    (hk : nbytes s.n ≤ s.daddr.toNat) :
    dataRead s = raiseFatal .indexOutOfRange dataReadOp s.daddr
      (s.drawn.returning ((Config.freeByte s.draws).setWidth 32)) := by
  simp [dataRead, hf, hv, hk]

theorem dataRead_inRange {s : State} (hf : s.status.fault = false) (hv : s.status.valid = true)
    (hk : s.daddr.toNat < nbytes s.n) :
    dataRead s = checkStorage s (.next (s.drawn.daddrNext.returning
      ((mergePad (padMask s.n s.daddr.toNat) (s.storage.readByte s.daddr.toNat) (Config.freeByte s.draws)).setWidth
        32))) := by
  simp [dataRead, hf, hv, Nat.not_le.mpr hk]

theorem dataWrite_noInstance {s : State} (hf : s.status.fault = false) (hv : s.status.valid = false) (w : Word) :
    dataWrite w s = raiseFatal .noInstance dataWriteOp s.daddr s := by
  simp [dataWrite, hf, hv]

theorem dataWrite_outOfRange {s : State} (hf : s.status.fault = false) (hv : s.status.valid = true)
    (hk : nbytes s.n ≤ s.daddr.toNat) (w : Word) :
    dataWrite w s = raiseFatal .indexOutOfRange dataWriteOp s.daddr s := by
  simp [dataWrite, hf, hv, hk]

theorem dataWrite_inRange {s : State} (hf : s.status.fault = false) (hv : s.status.valid = true)
    (hk : s.daddr.toNat < nbytes s.n) (w : Word) :
    dataWrite w s = checkStorage s (.next (s.withStorage (s.storage.writeByte s.daddr.toNat
      (mergePad (padMask s.n s.daddr.toNat) (w.setWidth 8) (s.storage.readByte s.daddr.toNat)))).daddrNext) := by
  simp [dataWrite, hf, hv, Nat.not_le.mpr hk]

/-- A DATA read that answers a next state: halted, faulting, or a byte with DADDR moved on (R80, R92). -/
theorem dataRead_next {s t : State} (h : dataRead s = .next t) :
    (s.status.fault = true ∧ t = s.drawn.returning ((Config.freeByte s.draws).setWidth 32)) ∨
    (s.status.fault = false ∧ s.checks = .checked ∧ ∃ c, c.fatal = true ∧
      t = (s.drawn.returning ((Config.freeByte s.draws).setWidth 32)).fatalEntry c dataReadOp s.daddr) ∨
    (s.status.fault = false ∧ s.status.valid = true ∧ s.daddr.toNat < nbytes s.n ∧ s.storageFits = true ∧
      t = s.drawn.daddrNext.returning
        ((mergePad (padMask s.n s.daddr.toNat) (s.storage.readByte s.daddr.toNat) (Config.freeByte s.draws)).setWidth
          32)) := by
  simp only [dataRead] at h
  cases hf : s.status.fault <;> simp only [hf, if_true, if_false, Bool.false_eq_true] at h
  · cases hv : s.status.valid <;> simp only [hv, Bool.not_false, Bool.not_true, if_true, if_false, Bool.false_eq_true] at h
    · exact .inr (.inl ⟨rfl, (raiseFatal_next h).1, _, rfl, (raiseFatal_next h).2⟩)
    · split at h
      · exact .inr (.inl ⟨rfl, (raiseFatal_next h).1, _, rfl, (raiseFatal_next h).2⟩)
      · rename_i hk
        unfold checkStorage at h
        split at h
        · rename_i hs
          refine .inr (.inr ⟨rfl, rfl, by omega, hs, ?_⟩)
          injection h with h
          exact h.symm
        · cases h
  · refine .inl ⟨rfl, ?_⟩
    injection h with h
    exact h.symm

/-- A DATA write that answers a next state: ignored, faulting, or a byte stored with DADDR moved on (R81, R92). -/
theorem dataWrite_next {s t : State} {w : Word} (h : dataWrite w s = .next t) :
    (s.status.fault = true ∧ t = s) ∨
    (s.status.fault = false ∧ s.checks = .checked ∧ ∃ c, c.fatal = true ∧ t = s.fatalEntry c dataWriteOp s.daddr) ∨
    (s.status.fault = false ∧ s.status.valid = true ∧ s.daddr.toNat < nbytes s.n ∧ s.storageFits = true ∧
      t = (s.withStorage (s.storage.writeByte s.daddr.toNat (mergePad (padMask s.n s.daddr.toNat) (w.setWidth 8)
        (s.storage.readByte s.daddr.toNat)))).daddrNext) := by
  simp only [dataWrite] at h
  cases hf : s.status.fault <;> simp only [hf, if_true, if_false, Bool.false_eq_true] at h
  · cases hv : s.status.valid <;> simp only [hv, Bool.not_false, Bool.not_true, if_true, if_false, Bool.false_eq_true] at h
    · exact .inr (.inl ⟨rfl, (raiseFatal_next h).1, _, rfl, (raiseFatal_next h).2⟩)
    · split at h
      · exact .inr (.inl ⟨rfl, (raiseFatal_next h).1, _, rfl, (raiseFatal_next h).2⟩)
      · rename_i hk
        unfold checkStorage at h
        split at h
        · rename_i hs
          refine .inr (.inr ⟨rfl, rfl, by omega, hs, ?_⟩)
          injection h with h
          exact h.symm
        · cases h
  · refine .inl ⟨rfl, ?_⟩
    injection h with h
    exact h.symm

/-- The vector bits of the byte a DATA write stores (R81): the written byte's, at the indices below `n`; pad positions and
other bytes stay. -/
theorem bit_dataStore (m : Memory) {n k : Nat} (hk : k < nbytes n) (v : Byte) (j : Nat) :
    (m.writeByte k (mergePad (padMask n k) v (m.readByte k))).bit j =
      if j / 8 = k ∧ j < n then v.getLsbD (7 - j % 8) else m.bit j := by
  rw [Memory.bit_writeByte]
  by_cases hj : j / 8 = k
  · subst hj
    rw [if_pos rfl, getLsbD_mergePad _ _ _ (by omega), getLsbD_padMask hk]
    by_cases hn : j < n
    · simp [hn, Nat.not_le.mpr hn]
    · simp [hn, Nat.le_of_not_lt hn, Memory.bit]
  · simp [hj]

/-! ### The register map -/

theorem Reg.ofOffset_offset (r : Reg) : Reg.ofOffset r.offset = some r := by cases r <;> rfl

theorem accessLegal_offset (r : Reg) : accessLegal 4 r.offset = true := by cases r <;> rfl

end Sys2Proof.Machine
end

