-- ==== Sys2Proof/Laws/Relational.lean ====
section
/-! SUPPORT. Two runs side by side: the checks and ends of a command relate the results of two states that pass and fail
them alike. -/

namespace Sys2Proof.Machine

variable {R : State → State → Prop} {s t : State} {k l : Result}

theorem relResult_next (h : R s t) : relResult R (.next s) (.next t) := h

theorem relResult_fault (f : Fault) : relResult R (.fault f) (.fault f) := rfl

theorem relResult_refused (r : Refusal) : relResult R (.refused r) (.refused r) := rfl

/-- What related results say about a next state. -/
theorem relResult_of_next {p q : Result} (h : relResult R p q) (hp : p = .next s) : ∃ t, q = .next t ∧ R s t := by
  subst hp
  cases q with
  | next t => exact ⟨t, rfl, h⟩
  | fault => exact h.elim
  | refused => exact h.elim

theorem raiseFatal_rel (c : ECode) (o : Byte) (v : Word) (hc : s.checks = t.checks)
    (h : R (s.fatalEntry c o v) (t.fatalEntry c o v)) : relResult R (raiseFatal c o v s) (raiseFatal c o v t) := by
  unfold raiseFatal
  rw [← hc]
  cases s.checks
  · exact h
  · exact rfl

theorem commandFatal_rel (i : Instr) (c : ECode) (v : Word) (hc : s.checks = t.checks)
    (h : R (s.haltedBy c (opcode i) v) (t.haltedBy c (opcode i) v)) :
    relResult R (commandFatal i c v s) (commandFatal i c v t) :=
  raiseFatal_rel (s := s.withoutBusy) (t := t.withoutBusy) c _ v hc h

theorem checkInstance_rel {i : Instr} (hv : s.status.valid = t.status.valid)
    (hf : ∀ c v, relResult R (commandFatal i c v s) (commandFatal i c v t)) (hk : relResult R k l) :
    relResult R (checkInstance i s k) (checkInstance i t l) := by
  unfold checkInstance
  rw [← hv]
  split
  · exact hk
  · exact hf _ _

theorem checkIndex_rel {i : Instr} {x : Word} (hn : s.n = t.n)
    (hf : ∀ c v, relResult R (commandFatal i c v s) (commandFatal i c v t)) (hk : relResult R k l) :
    relResult R (checkIndex i x s k) (checkIndex i x t l) := by
  unfold checkIndex
  rw [← hn]
  split
  · exact hk
  · exact hf _ _

theorem checkNonempty_rel {i : Instr} (hn : s.n = t.n)
    (hf : ∀ c v, relResult R (commandFatal i c v s) (commandFatal i c v t)) (hk : s.n ≠ 0 → relResult R k l) :
    relResult R (checkNonempty i s k) (checkNonempty i t l) := by
  unfold checkNonempty
  rw [← hn]
  split
  · exact hf _ _
  · rename_i h
    exact hk h

theorem checkCapacity_rel {i : Instr} {c : Word} (hm : s.maxBits = t.maxBits)
    (hr : R (s.reportedBy .allocationFailure (opcode i) c) (t.reportedBy .allocationFailure (opcode i) c))
    (hk : relResult R k l) : relResult R (checkCapacity i c s k) (checkCapacity i c t l) := by
  unfold checkCapacity
  rw [← hm]
  split
  · exact hr
  · exact hk

theorem checkStorage_rel (hs : s.storageFits = t.storageFits) (hk : relResult R k l) :
    relResult R (checkStorage s k) (checkStorage t l) := by
  unfold checkStorage
  rw [← hs]
  split
  · exact hk
  · rfl

end Sys2Proof.Machine
end

