-- ==== Sys2Proof/Machine/Program.lean ====
section
/-! DEFINITION. The spec's own assembler statements and pseudo-instructions as the port accesses they expand to
(30_encoding.md R130, R131). The block itself has no control flow (10_state.md R36): a program is a list of inputs. -/

namespace Sys2Proof.Machine

/-- A statement of a host program (R130, R131). -/
inductive Stmt where
  /-- `W <reg>, <value>` -/
  | write (r : Reg) (v : Word)
  /-- `R <reg>` -/
  | read (r : Reg)
  /-- `POLL` -/
  | poll
  /-- `<MNEMONIC> [<a> [, <b>]]` -/
  | command (i : Instr) (a b : Word)
  /-- `SET_MANY i1, ..., ik` -/
  | setMany (is : List Word)
  /-- `CLEAR_MANY i1, ..., ik` -/
  | clearMany (is : List Word)
  /-- `TOGGLE_MANY i1, ..., ik` -/
  | toggleMany (is : List Word)
  /-- `FIND_NEXT T, f` -/
  | findNext (t : Bool) (f : Word)
  /-- `FIND_PREV T, f` -/
  | findPrev (t : Bool) (f : Word)
  /-- `LOAD_BYTES k, b0, ..., bm` -/
  | loadBytes (k : Word) (bytes : List Byte)
  /-- `READ_BYTES k, m` -/
  | readBytes (k : Word) (m : Nat)
  /-- `CREATE_BITS "<s>"`: the string as its bits in index order -/
  | createBits (bits : List Bool)
  deriving DecidableEq, Repr

/-- `W <reg>, <value>` as a port access. -/
def writeReg (r : Reg) (v : Word) : Input := .write 4 r.offset v

/-- `R <reg>` as a port access. -/
def readReg (r : Reg) : Input := .read 4 r.offset

/-- A command: its operands are written if it reads them, then its word to CMD (R130). -/
def issueCommand (i : Instr) (a b : Word) : List Input :=
  (if readsArg0 i then [writeReg .arg0 a] else []) ++
    (if readsArg1 i then [writeReg .arg1 b] else []) ++ [writeReg .cmd (encode i)]

/-- A single-bit command on each index, in the order given (R131, 41_bit_ops.md R177). -/
def issueMany (i : Instr) (is : List Word) : List Input := is.flatMap fun x => issueCommand i x 0#32

/-- `LOAD_BYTES` (R131). -/
def loadBytesAt (k : Word) (bytes : List Byte) : List Input :=
  writeReg .daddr k :: bytes.map fun b => writeReg .data (b.setWidth 32)

/-- The byte whose positions, from the most-significant bit, are the given bits; missing positions are 0 (00_scope.md R20). -/
def packByte (bits : List Bool) : Byte :=
  BitVec.ofNat 8 ((List.range 8).foldl (fun acc j => 2 * acc + (bits.getD j false).toNat) 0)

/-- The bytes that pack the bits, pad positions 0 (R131). -/
def packBytes (bits : List Bool) : List Byte :=
  (List.range (nbytes bits.length)).map fun k => packByte ((bits.drop (8 * k)).take 8)

/-- The accesses a statement expands to (R130, R131). -/
def Stmt.expand : Stmt → List Input
  | .write r v => [writeReg r v]
  | .read r => [readReg r]
  | .poll => [.poll]
  | .command i a b => issueCommand i a b
  | .setMany is => issueMany .set is
  | .clearMany is => issueMany .clear is
  | .toggleMany is => issueMany .toggle is
  | .findNext t f => issueCommand (if t then .findNextSet else .findNextClear) f 0#32
  | .findPrev t f => issueCommand (if t then .findPrevSet else .findPrevClear) f 0#32
  | .loadBytes k bytes => loadBytesAt k bytes
  | .readBytes k m => writeReg .daddr k :: List.replicate m (readReg .data)
  | .createBits bits =>
    issueCommand .create (BitVec.ofNat 32 bits.length) 0#32 ++ loadBytesAt 0#32 (packBytes bits)

/-- A host program as the inputs it makes. -/
def assemble (p : List Stmt) : List Input := p.flatMap Stmt.expand

/-- The host program is what the outside world does next. -/
def State.withProgram (p : List Stmt) (s : State) : State := { s with inputs := s.inputs ++ assemble p }

end Sys2Proof.Machine
end

