-- ==== Sys2Proof/Tests/Slice0.lean ====
section
/-! SUPPORT. Tests with expected values from the spec (its encodings and the vectors V of 95_test_vectors.md), and for
every statement with hypotheses a concrete state that meets them, a witness for each of its clauses. -/

open Sys2Proof Sys2Proof.Machine

namespace Sys2Proof.Tests

/-! ### Helpers -/

/-- A block with an `n`-bit vector in the storage `m`, a command pending and operands `a` and `b`. -/
def vec (n : Nat) (m : Memory) (a b : Word) : State :=
  { State.reset with
    status := { Status.reset with valid := true, busy := true }
    bitcount := BitVec.ofNat 32 n
    storage := m
    arg0 := a
    arg1 := b }

/-- A block without a vector, a command pending and operand `a`. -/
def bare (a : Word) : State :=
  { State.reset with status := { Status.reset with busy := true }, arg0 := a }

/-- A block with an `n`-bit vector and nothing pending, its next inputs `is`. -/
def idle (n : Nat) (m : Memory) (is : List Input) : State :=
  { vec n m 0#32 0#32 with status := { Status.reset with valid := true }, inputs := is }

/-- A halted block with its next inputs `is`. -/
def halted (is : List Input) : State :=
  { idle 8 [] is with status := { Status.reset with valid := true, fault := true, ecode := .indexOutOfRange } }

/-- What a next state shows. -/
def seen {α : Type} (f : State → α) : Result → Option α
  | .next t => some (f t)
  | .fault _ => none
  | .refused _ => none

/-- FOUND and RESULT. -/
def search (s : State) : Bool × Word := (s.status.found, s.result)

/-- STATUS and ERRINFO. -/
def record (s : State) : Word × Word := (s.status.word, s.errinfo)

/-! ### Well-formedness -/

theorem test_wf_refuses_narrow_read : (Input.read 2 0x10#8).wf = false := by decide

theorem test_wf_refuses_unaligned_write : (Input.write 4 0x02#8 0#32).wf = false := by decide

theorem test_wf_accepts_aligned_word : (Input.read 4 0x10#8).wf = true := by decide

theorem test_wf_every_command : Instr.wf .nop = true ∧ Instr.wf .lastSet = true := by decide

/-! ### Decoding: every word of R118 -/

theorem test_decode_storage : decodeTableWord 32 0x00 = some .nop ∧ decodeTableWord 32 0x01 = some .create ∧
    decodeTableWord 32 0x02 = some .resize ∧ decodeTableWord 32 0x03 = some .destroy := by decide

theorem test_decode_bit : decodeTableWord 32 0x10 = some .get ∧ decodeTableWord 32 0x11 = some .set ∧
    decodeTableWord 32 0x12 = some .clear ∧ decodeTableWord 32 0x13 = some .toggle := by decide

theorem test_decode_region : decodeTableWord 32 0x21 = some .setRegion ∧ decodeTableWord 32 0x22 = some .clearRegion ∧
    decodeTableWord 32 0x23 = some .toggleRegion := by decide

theorem test_decode_whole : decodeTableWord 32 0x31 = some .setAll ∧ decodeTableWord 32 0x32 = some .clearAll ∧
    decodeTableWord 32 0x33 = some .toggleAll := by decide

theorem test_decode_count : decodeTableWord 32 0x40 = some .countSet ∧ decodeTableWord 32 0x41 = some .countClear := by
  decide

theorem test_decode_search : decodeTableWord 32 0x50 = some .findNextClear ∧ decodeTableWord 32 0x51 = some .findNextSet ∧
    decodeTableWord 32 0x52 = some .findPrevClear ∧ decodeTableWord 32 0x53 = some .findPrevSet := by decide

theorem test_decode_anchored : decodeTableWord 32 0x54 = some .firstClear ∧ decodeTableWord 32 0x55 = some .firstSet ∧
    decodeTableWord 32 0x56 = some .lastClear ∧ decodeTableWord 32 0x57 = some .lastSet := by decide

/-- The illegal words of V8.1, V8.2 and V8.3. -/
theorem test_decode_illegal : ∀ w ∈ [0x04, 0x14, 0x20, 0x30, 0x34, 0x42, 0x58, 0x60, 0xFF, 0x100, 0x80000011],
    decodeTableWord 32 w = none := by decide

/-! ### One step, expected values of 95_test_vectors.md -/

/-- V1.16: NOP clears ERR and ECODE, keeps ERROP and ERRINFO. -/
theorem test_nop_keeps_record : seen record (exec .nop { vec 8 [] 70000#32 0#32 with
    status := { Status.reset with valid := true, busy := true, err := true, ecode := .allocationFailure, errop := 0x01#8 }
    errinfo := 70000#32 }) = some (0x00010002#32, 0x11170#32) := by decide

/-- V1.15: CREATE replaces the vector and zero-fills. -/
theorem test_create_replaces : seen (fun t => (t.n, t.bit 0, t.status.word)) (exec .create (vec 8 [(0, 0xFF#8)] 1#32 0#32)) =
    some (1, false, 0x00000002#32) := by decide

/-- V1.4: CREATE beyond the capacity. -/
theorem test_create_too_large : seen record (exec .create (bare 65537#32)) = some (0x00010408#32, 0x10001#32) := by decide

/-- V1.8: the former pad positions of byte 0 are cleared by growth. -/
theorem test_resize_clears_growth : seen (fun t => (t.n, t.storage)) (exec .resize (vec 5 [(0, 0xFF#8)] 11#32 0#32)) =
    some (11, [(0, 0xF8#8)]) := by decide

/-- V1.7: RESIZE beyond the capacity keeps the vector. -/
theorem test_resize_too_large : seen (fun t => (record t, t.n, t.storage))
    (exec .resize (vec 16 [(0, 0xAA#8), (1, 0x55#8)] 70000#32 0#32)) =
    some ((0x0002040A#32, 0x11170#32), 16, [(0, 0xAA#8), (1, 0x55#8)]) := by decide

/-- V1.12. -/
theorem test_destroy : seen (fun t => (t.status.word, t.n)) (exec .destroy (vec 8 [] 0#32 0#32)) = some (0#32, 0) := by
  decide

/-- V1.11. -/
theorem test_destroy_twice_halts : seen record (exec .destroy (bare 0#32)) = some (0x00030210#32, 0#32) := by decide

/-- V2.10: on 7:1010111, `GET 1` is 0 and `GET 6` is 1. -/
theorem test_get : seen State.result (exec .get (vec 7 [(0, 0xAE#8)] 1#32 0#32)) = some 0#32 ∧
    seen State.result (exec .get (vec 7 [(0, 0xAE#8)] 6#32 0#32)) = some 1#32 := by decide

/-- V2.7. -/
theorem test_set : seen State.storage (exec .set (vec 16 [] 9#32 0#32)) = some [(1, 0x40#8)] := by decide

/-- V2.5. -/
theorem test_set_out_of_range : seen record (exec .set (vec 10 [] 10#32 0#32)) = some (0x00110112#32, 10#32) := by decide

/-- V2.8. -/
theorem test_clear : seen State.storage (exec .clear (vec 16 [(0, 0xFF#8), (1, 0xFF#8)] 0#32 0#32)) =
    some [(0, 0x7F#8), (1, 0xFF#8)] := by decide

/-- V2.9. -/
theorem test_toggle : seen State.storage (exec .toggle (vec 8 [(0, 0x0F#8)] 7#32 0#32)) = some [(0, 0x0E#8)] ∧
    seen State.storage (exec .toggle (vec 8 [(0, 0x0E#8)] 0#32 0#32)) = some [(0, 0x8E#8)] := by decide

/-- V3.5: head, body and tail. -/
theorem test_set_region : seen State.storage (exec .setRegion (vec 32 [] 4#32 27#32)) =
    some [(0, 0x0F#8), (1, 0xFF#8), (2, 0xFF#8), (3, 0xF0#8)] := by decide

/-- V3.15: both ends out of range, ARG0 is the one reported. -/
theorem test_set_region_reports_arg0 : seen record (exec .setRegion (vec 16 [] 20#32 30#32)) =
    some (0x00210112#32, 20#32) := by decide

/-- V3.6: the ends in the other order. -/
theorem test_clear_region : seen State.storage
    (exec .clearRegion (vec 32 [(0, 0xFF#8), (1, 0xFF#8), (2, 0xFF#8), (3, 0xFF#8)] 27#32 4#32)) =
    some [(0, 0xF0#8), (3, 0x0F#8)] := by decide

/-- V3.12. -/
theorem test_toggle_region : seen State.storage
    (exec .toggleRegion (vec 16 [(0, 0x0F#8), (1, 0x0F#8)] 2#32 12#32)) = some [(0, 0x30#8), (1, 0xF7#8)] := by decide

/-- V4.3: positions 5 to 7 of byte 1 are pad positions, which no command changes. -/
theorem test_set_all : seen State.storage (exec .setAll (vec 13 [(0, 0x12#8), (1, 0x30#8)] 0#32 0#32)) =
    some [(0, 0xFF#8), (1, 0xF8#8)] := by decide

/-- V4.6. -/
theorem test_set_all_empty : seen record (exec .setAll (vec 0 [] 0#32 0#32)) = some (0x00310112#32, 0#32) := by decide

/-- V4.5, with set pad positions. -/
theorem test_clear_all : seen State.storage (exec .clearAll (vec 12 [(0, 0xAB#8), (1, 0xCF#8)] 0#32 0#32)) =
    some [(1, 0x0F#8)] := by decide

/-- V4.3. -/
theorem test_toggle_all : seen State.storage (exec .toggleAll (vec 13 [(0, 0x12#8), (1, 0x30#8)] 0#32 0#32)) =
    some [(0, 0xED#8), (1, 0xC8#8)] := by decide

/-- V5.8: four bytes by the table, five bits one by one. -/
theorem test_count_set : seen State.result
    (exec .countSet (vec 37 [(0, 0xDE#8), (1, 0xAD#8), (2, 0xBE#8), (3, 0xEF#8), (4, 0xA0#8)] 0#32 0#32)) =
    some 26#32 := by decide

/-- V5.6: set pad positions are not counted. -/
theorem test_count_set_no_pads : seen State.result (exec .countSet (vec 13 [(0, 0xFF#8), (1, 0xFF#8)] 0#32 0#32)) =
    some 13#32 := by decide

/-- V5.7. -/
theorem test_count_clear : seen State.result (exec .countClear (vec 16 [(0, 0xA7#8), (1, 0x01#8)] 0#32 0#32)) =
    some 10#32 := by decide

/-- V6.1: clear pad positions never match. -/
theorem test_find_next_clear : seen search (exec .findNextClear (vec 12 [(0, 0xFF#8), (1, 0xF0#8)] 0#32 0#32)) =
    some (false, 0xFFFFFFFF#32) ∧
    seen search (exec .findNextClear (vec 16 [(0, 0xFF#8), (1, 0xFE#8)] 0#32 0#32)) = some (true, 15#32) := by decide

/-- V6.7: the start mask hides bit 0. -/
theorem test_find_next_set : seen search (exec .findNextSet (vec 16 [(0, 0x81#8)] 1#32 0#32)) = some (true, 7#32) := by
  decide

/-- V6.14. -/
theorem test_find_next_set_out_of_range : seen record (exec .findNextSet (vec 12 [] 12#32 0#32)) =
    some (0x00510112#32, 12#32) := by decide

/-- V6.11. -/
theorem test_find_prev_clear : seen search (exec .findPrevClear (vec 16 [(0, 0x7F#8), (1, 0xFF#8)] 15#32 0#32)) =
    some (true, 0#32) := by decide

/-- V6.8: the start mask hides bit 7. -/
theorem test_find_prev_set : seen search (exec .findPrevSet (vec 16 [(0, 0x81#8)] 6#32 0#32)) = some (true, 0#32) := by
  decide

/-- V6.12. -/
theorem test_first_clear : seen search (exec .firstClear (vec 8 [(0, 0xF7#8)] 0#32 0#32)) = some (true, 4#32) := by decide

/-- Table of V6, only bit 11 set; ARG0 is out of range and not read. -/
theorem test_first_set : seen search (exec .firstSet (vec 20 [(1, 0x10#8)] 99#32 0#32)) = some (true, 11#32) := by decide

/-- V6.13. -/
theorem test_last_clear : seen search (exec .lastClear (vec 13 [(0, 0xFF#8), (1, 0xF0#8)] 0#32 0#32)) =
    some (true, 12#32) := by decide

/-- V6.3: set pad positions are no candidates. -/
theorem test_last_set : seen search (exec .lastSet (vec 12 [(0, 0xFF#8), (1, 0xFF#8)] 0#32 0#32)) =
    some (true, 11#32) := by decide

/-! ### The engine and the port -/

/-- V8.4: an illegal word is reported before the missing vector. -/
theorem test_illegal_before_no_instance : seen record (step (State.reset.withFetchWord 32 0x20)) =
    some (0x00200310#32, 0x20#32) := by decide

/-- V8.3: reserved bits make SET illegal. -/
theorem test_illegal_reserved_bits : seen record (step ((idle 8 [] []).withFetchWord 32 0x80000011)) =
    some (0x00110312#32, 0x80000011#32) := by decide

/-- V8.5: NO_INSTANCE before the range check. -/
theorem test_no_instance_before_range : seen record (step (State.reset.withFetchWord 32 0x21)) =
    some (0x00210210#32, 0#32) := by decide

/-- V1.2: NOP as the first command after reset. -/
theorem test_nop_from_reset : seen record (step (State.reset.withFetchWord 32 0)) = some (0#32, 0#32) := by decide

/-- V7.1, second write: pad positions of byte 1 are not written, bits 31:8 are dropped. -/
theorem test_data_write : seen (fun t => (t.storage, t.daddr))
    (step { idle 12 [(1, 0x05#8)] [writeReg .data 0x1FF#32] with daddr := 1#32 }) =
    some ([(1, 0xF5#8)], 2#32) := by decide

/-- V7.5. -/
theorem test_data_write_no_vector : seen record (step { State.reset with inputs := [writeReg .data 5#32] }) =
    some (0x00F10210#32, 0#32) := by decide

/-- A DATA read of a whole byte returns it and moves DADDR on (V7.2). -/
theorem test_data_read : seen (fun t => (t.reads, t.daddr)) (step (idle 12 [(0, 0xFF#8)] [readReg .data])) =
    some ([0xFF#32], 1#32) := by decide

/-- V7.3: past the last in-use byte. -/
theorem test_data_read_past_end : seen record (step { idle 12 [] [readReg .data] with daddr := 2#32 }) =
    some (0x00F00112#32, 2#32) := by decide

/-- V9.2: a RESULT read waits for the engine. -/
theorem test_result_read_is_held : seen (fun t => (t.inputs, t.reads, t.status.busy))
    (step { vec 8 [] 0#32 0#32 with cmd := 0x40#32, inputs := [readReg .result], delay := 7 }) =
    some ([readReg .result], [], false) := by decide

/-- V9.1, first outcome: a STATUS read during the command shows BUSY = 1 and the fields from before it. -/
theorem test_status_read_while_busy : seen State.reads
    (step { vec 8 [] 3#32 0#32 with cmd := 0x11#32, inputs := [readReg .status], delay := 1 }) =
    some [0x00000003#32] := by decide

/-- The reset input clears FAULT. -/
theorem test_reset_leaves_halt : seen (fun t => (t.status.word, t.n)) (step (halted [.reset])) = some (0#32, 0) := by decide

/-! ### Host statements (R130, R131) -/

/-- V0.4: `CREATE_BITS "1010111"` is `CREATE 7; LOAD_BYTES 0, 0xAE`. -/
theorem test_create_bits : assemble [.createBits [true, false, true, false, true, true, true]] =
    [.write 4 0x04#8 7#32, .write 4 0x00#8 1#32, .write 4 0x1C#8 0#32, .write 4 0x20#8 0xAE#32] := by decide

/-- V2.12: the indices in the order given; a command that does not read ARG1 does not write it. -/
theorem test_set_many : assemble [.setMany [1#32, 9#32]] =
    [.write 4 0x04#8 1#32, .write 4 0x00#8 0x11#32, .write 4 0x04#8 9#32, .write 4 0x00#8 0x11#32] := by decide

theorem test_region_statement : assemble [.command .setRegion 90#32 5#32, .poll] =
    [.write 4 0x04#8 90#32, .write 4 0x08#8 5#32, .write 4 0x00#8 0x21#32, .poll] := by decide

/-! ### Witnesses: states that meet the hypotheses of the statements, each clause at the ends of its range -/

theorem witness_StepRunsPendingCommand :
    (engineTurn { bare 0#32 with cmd := 0x01#32 } ∧ decode 0x01#32 = .ok .create) ∧
    engineTurn { bare 0#32 with inputs := [.poll], delay := 0 } ∧
    engineTurn { bare 0#32 with inputs := [readReg .result], delay := 3 } ∧
    decodeTableWord 8 0x57 = some .lastSet ∧ decodeTableWord 32 0x00 = some .nop :=
  ⟨⟨⟨rfl, .inl rfl⟩, rfl⟩, ⟨rfl, .inr (.inl rfl)⟩, ⟨rfl, .inr (.inr ⟨_, _, rfl, rfl⟩)⟩, rfl, rfl⟩

theorem witness_IllegalCommandHalts :
    let s := { bare 0#32 with cmd := 0x80000011#32 }
    s.checks = .checked ∧ engineTurn s ∧ ∀ i, s.cmd ≠ encode i :=
  ⟨rfl, ⟨rfl, .inl rfl⟩, fun i => by cases i <;> decide⟩

theorem witness_IdleBlockDoesNothing : State.reset.status.busy = false ∧ State.reset.inputs = [] := by decide

theorem witness_PendingCommandIsExecuted :
    let s := { bare 0#32 with inputs := [readReg .status, .poll, readReg .result], delay := 2 }
    s.status.busy = true ∧ ∀ x ∈ s.inputs, x ≠ Input.reset := by decide

theorem witness_ResetInputDiscardsPending :
    ((halted [.reset]).inputs = [.reset] ∧ (halted [.reset]).status.busy = false) ∧
    (let s := { bare 0#32 with inputs := [.reset, .poll], delay := 1 }
     s.inputs = .reset :: [.poll] ∧ s.delay ≠ 0) ∧
    (let s := { bare 0#32 with inputs := [.reset, .poll], delay := 0 }
     s.inputs = .reset :: [.poll] ∧ s.status.busy = true ∧ s.delay = 0) := by decide

/-- A state of the invariant with a vector, its next input a SET. -/
theorem inv_issue : (idle 8 [(0, 0x40#8)] [writeReg .cmd 0x11#32]).Inv :=
  ⟨by decide, by decide, by decide, by decide, by decide, by decide, by decide⟩

theorem witness_StepKeepsInvariant : ∃ s t : State, s.Inv ∧ s.n = 8 ∧ step s = .next t :=
  ⟨_, _, inv_issue, rfl, rfl⟩

theorem witness_InvariantStatesNeverStop : ∃ s : State, s.Inv ∧ s.checks = .checked ∧ s.inputs ≠ [] ∧
    ∀ x ∈ s.inputs.head?, x.wf = true :=
  ⟨_, inv_issue, rfl, by decide, by decide⟩

theorem witness_StepKeepsParameters : ∃ t, step { bare 0#32 with cmd := 0x01#32 } = .next t := ⟨_, rfl⟩

theorem witness_CommandEndsOneOfThreeWays :
    (∃ t, exec .get (vec 8 [] 8#32 0#32) = .next t) ∧ (∃ t, exec .create (bare 65537#32) = .next t) ∧
    ∃ t, exec .get (vec 8 [] 7#32 0#32) = .next t := ⟨⟨_, rfl⟩, ⟨_, rfl⟩, ⟨_, rfl⟩⟩

theorem witness_UncheckedBuildRefusesExactlyFatal :
    let s := { vec 8 [] 8#32 0#32 with checks := .unchecked, cmd := 0x10#32 }
    let u := { s with arg0 := 7#32 }
    (s.checks = .unchecked ∧ s.status.fault = false) ∧
    (∃ t, step { s with checks := .checked } = .next t ∧ t.status.fault = true) ∧
    ∃ t, step { u with checks := .checked } = .next t ∧ t.status.fault = false :=
  ⟨⟨rfl, rfl⟩, ⟨_, rfl, rfl⟩, ⟨_, rfl, rfl⟩⟩

theorem witness_StorageHoleStops :
    let s := { vec 9 [] 8#32 0#32 with capacity := 8#32 }
    Instr.set ∉ [Instr.nop, .create, .resize, .destroy] ∧ s.status.valid = true ∧ nbytes s.maxBits < nbytes s.n ∧
      s.arg0.toNat < s.n ∧ s.arg1.toNat < s.n := by decide

theorem witness_CreateCommand :
    (bare 65537#32).maxBits < (bare 65537#32).arg0.toNat ∧ (bare 65536#32).arg0.toNat ≤ (bare 65536#32).maxBits := by decide

theorem witness_ResizeCommand :
    ((bare 8#32).status.valid = false ∧ (bare 8#32).checks = .checked) ∧
    (let s := vec 8 [] 65537#32 0#32; s.status.valid = true ∧ s.maxBits < s.arg0.toNat) ∧
    (let s := vec 8 [] 65536#32 0#32; s.status.valid = true ∧ s.arg0.toNat ≤ s.maxBits) ∧
    (let s := vec 8 [] 0#32 0#32; s.status.valid = true ∧ s.arg0.toNat ≤ s.maxBits) := by decide

theorem witness_DestroyCommand :
    ((bare 0#32).status.valid = false ∧ (bare 0#32).checks = .checked) ∧ (vec 8 [] 0#32 0#32).status.valid = true := by decide

/-- The clauses of an index command: no vector, the first index out of range, the last one in range. -/
theorem witness_indexClauses :
    ((bare 0#32).status.valid = false ∧ (bare 0#32).checks = .checked) ∧
    (let s := vec 10 [] 10#32 0#32; s.status.valid = true ∧ s.n ≤ s.arg0.toNat ∧ s.checks = .checked) ∧
    (let s := vec 10 [] 9#32 0#32; s.status.valid = true ∧ s.n ≤ s.maxBits ∧ s.arg0.toNat < s.n) := by decide

theorem witness_GetCommand : (vec 65536 [] 65535#32 0#32).n ≤ (vec 65536 [] 65535#32 0#32).maxBits ∧
    (vec 65536 [] 65535#32 0#32).arg0.toNat < (vec 65536 [] 65535#32 0#32).n := by decide

theorem witness_SingleBitWriteCommands :
    let s := vec 1 [(0, 0x80#8)] 0#32 0#32
    s.status.valid = true ∧ s.n ≤ s.maxBits ∧ s.arg0.toNat < s.n := by decide

theorem witness_SetAndClearAreIdempotent :
    let s := vec 10 [(1, 0x40#8)] 9#32 0#32
    s.storage.wf ∧ s.status.valid = true ∧ s.n ≤ s.maxBits ∧ s.arg0.toNat < s.n := by decide

theorem witness_ToggleIsAnInvolution :
    let s := vec 10 [(1, 0x40#8)] 0#32 0#32
    s.storage.wf ∧ s.status.valid = true ∧ s.n ≤ s.maxBits ∧ s.arg0.toNat < s.n := by decide

theorem witness_RegionCommands :
    (let s := vec 16 [] 16#32 3#32; s.status.valid = true ∧ s.n ≤ s.arg0.toNat ∧ s.checks = .checked) ∧
    (let s := vec 16 [] 15#32 16#32; s.status.valid = true ∧ s.arg0.toNat < s.n ∧ s.n ≤ s.arg1.toNat ∧ s.checks = .checked) ∧
    (let s := vec 16 [] 15#32 0#32
     s.status.valid = true ∧ s.n ≤ s.maxBits ∧ s.arg0.toNat < s.n ∧ s.arg1.toNat < s.n) := by decide

theorem witness_WholeVectorCommands :
    (let s := vec 0 [] 0#32 0#32; s.status.valid = true ∧ s.n = 0 ∧ s.checks = .checked) ∧
    (let s := vec 1 [] 0#32 0#32; s.status.valid = true ∧ s.n ≤ s.maxBits ∧ s.n ≠ 0) := by decide

theorem witness_WholeVectorEqualsFullRegion :
    (let s := vec 37 [(0, 0xDE#8)] 0#32 0#32; s.status.valid = true ∧ s.n ≤ s.maxBits ∧ s.n ≠ 0) ∧
    (let s := vec 0 [] 0#32 0#32; s.status.valid = true ∧ s.n ≤ s.maxBits ∧ s.n = 0 ∧ s.checks = .checked) := by decide

theorem witness_RegionTogglesAreInvolutions :
    let s := vec 20 [(0, 0x12#8), (1, 0x34#8), (2, 0x50#8)] 18#32 1#32
    s.storage.wf ∧ s.status.valid = true ∧ s.n ≤ s.maxBits ∧ s.arg0.toNat < s.n ∧ s.arg1.toNat < s.n ∧ s.n ≠ 0 := by decide

theorem witness_CountCommands :
    (let s := vec 0 [] 0#32 0#32; s.status.valid = true ∧ s.n ≤ s.maxBits) ∧
    (let s := vec 65536 [] 0#32 0#32; s.status.valid = true ∧ s.n ≤ s.maxBits) := by decide

theorem witness_CountsAddUpToBitCount :
    let s := vec 13 [(0, 0xFF#8), (1, 0xFF#8)] 0#32 0#32
    s.status.valid = true ∧ s.n ≤ s.maxBits := by decide

/-- Found at the start index itself, the last of the vector; and no match from the start index on. -/
theorem witness_FindNextCommands :
    (let s := vec 20 [(2, 0x10#8)] 19#32 0#32
     s.status.valid = true ∧ s.n ≤ s.maxBits ∧ s.arg0.toNat < s.n ∧ s.arg0.toNat ≤ 19 ∧ 19 < s.n ∧ s.bit 19 = true ∧
       ∀ j < 19, s.arg0.toNat ≤ j → s.bit j ≠ true) ∧
    (let s := vec 20 [(1, 0x10#8)] 12#32 0#32
     s.status.valid = true ∧ s.n ≤ s.maxBits ∧ s.arg0.toNat < s.n ∧ ∀ i < s.n, s.arg0.toNat ≤ i → s.bit i ≠ true) := by
  decide

theorem witness_FindPrevCommands :
    (let s := vec 20 [(0, 0x80#8)] 19#32 0#32
     s.status.valid = true ∧ s.n ≤ s.maxBits ∧ s.arg0.toNat < s.n ∧ 0 ≤ s.arg0.toNat ∧ s.bit 0 = true ∧
       ∀ j ≤ s.arg0.toNat, 0 < j → s.bit j ≠ true) ∧
    (let s := vec 20 [(1, 0x10#8)] 10#32 0#32
     s.status.valid = true ∧ s.n ≤ s.maxBits ∧ s.arg0.toNat < s.n ∧ ∀ i ≤ s.arg0.toNat, s.bit i ≠ true) := by decide

theorem witness_FirstCommands :
    (let s := vec 20 [(1, 0x10#8)] 99#32 0#32
     s.status.valid = true ∧ s.n ≤ s.maxBits ∧ s.n ≠ 0 ∧ 11 < s.n ∧ s.bit 11 = true ∧ ∀ j < 11, s.bit j ≠ true) ∧
    (let s := vec 12 [(1, 0x0F#8)] 0#32 0#32
     s.status.valid = true ∧ s.n ≤ s.maxBits ∧ s.n ≠ 0 ∧ ∀ i < s.n, s.bit i ≠ true) ∧
    (let s := vec 0 [] 0#32 0#32; s.status.valid = true ∧ s.n = 0 ∧ s.checks = .checked) := by decide

theorem witness_LastCommands :
    (let s := vec 20 [(1, 0x10#8)] 99#32 0#32
     s.status.valid = true ∧ s.n ≤ s.maxBits ∧ s.n ≠ 0 ∧ 11 < s.n ∧ s.bit 11 = true ∧ ∀ j < s.n, 11 < j → s.bit j ≠ true) ∧
    (let s := vec 12 [(1, 0x0F#8)] 0#32 0#32
     s.status.valid = true ∧ s.n ≤ s.maxBits ∧ s.n ≠ 0 ∧ ∀ i < s.n, s.bit i ≠ true) := by decide

set_option maxRecDepth 20000 in
theorem witness_SearchContract :
    let s := vec 777 [(8, 0x04#8), (52, 0x08#8)] 0#32 0#32
    s.status.valid = true ∧ s.n = 777 ∧ s.n ≤ s.maxBits ∧ ∀ i < 777, s.bit i = true ↔ i = 69 ∨ i = 420 := by decide

theorem witness_CommandsLeaveHostRegisters : ∃ t, exec .setRegion (vec 32 [] 4#32 27#32) = .next t := ⟨_, rfl⟩

theorem witness_FoundAndResultWriters :
    (∃ t, exec .countSet (vec 8 [(0, 0x0F#8)] 0#32 0#32) = .next t) ∧ Instr.countSet ∉ findCommands ∧
    (∃ t, exec .set (vec 8 [] 7#32 0#32) = .next t) ∧ Instr.set ∉ resultCommands :=
  ⟨⟨_, rfl⟩, by decide, ⟨_, rfl⟩, by decide⟩

theorem witness_VectorLengthWriters :
    (∃ t, exec .create (bare 0#32) = .next t ∧ t.status.valid ≠ (bare 0#32).status.valid) ∧
    (∃ t, exec .destroy (vec 8 [] 0#32 0#32) = .next t ∧ t.status.valid ≠ (vec 8 [] 0#32 0#32).status.valid) ∧
    ∃ t, exec .setAll (vec 8 [] 0#32 0#32) = .next t :=
  ⟨⟨_, rfl, by decide⟩, ⟨_, rfl, by decide⟩, ⟨_, rfl⟩⟩

theorem witness_CommandsStoreOnlyTheirBytes :
    (∃ t, exec .set (vec 16 [(1, 0x01#8)] 7#32 0#32) = .next t) ∧ ¬ storesByte .set (vec 16 [(1, 0x01#8)] 7#32 0#32) 1 :=
  ⟨⟨_, rfl⟩, by show ¬ (1 = 7 / 8); decide⟩

theorem witness_UnreadOperandsHaveNoEffect :
    (∃ t, exec .firstSet (vec 8 [] 5#32 0#32) = .next t) ∧ ∃ t, exec .get (vec 8 [] 5#32 0#32) = .next t :=
  ⟨⟨_, rfl⟩, ⟨_, rfl⟩⟩

theorem witness_StaleBytesAreNeverObserved :
    let s := vec 5 [(0, 0xFF#8)] 0#32 0#32
    let t := vec 5 [(0, 0xF8#8), (1, 0x77#8)] 0#32 0#32
    sameVector s t ∧ s ≠ t :=
  ⟨⟨rfl, by decide⟩, by decide⟩

theorem witness_PortReadsReturnRegisters : ∀ off : PortOffset,
    (idle 8 [] [.read 4 off, .poll]).status.busy = false ∧ (idle 8 [] [.read 4 off, .poll]).inputs = .read 4 off :: [.poll] :=
  fun _ => ⟨rfl, rfl⟩

theorem witness_UnmappedOffsets : ∀ off ∈ [0x2C#8, 0xFC#8],
    (idle 8 [] [.read 4 off]).status.busy = false ∧ 0x2C ≤ off.toNat ∧ off.toNat % 4 = 0 ∧
    (idle 8 [] [.read 4 off]).inputs = .read 4 off :: [] ∧ (idle 8 [] [.write 4 off 1#32]).inputs = .write 4 off 1#32 :: [] := by
  decide

theorem witness_portWrites : ∀ r : Reg,
    let s := idle 8 [] [writeReg r 0xFFFFFFFF#32]
    s.status.busy = false ∧ s.status.fault = false ∧ s.inputs = .write 4 r.offset 0xFFFFFFFF#32 :: [] :=
  fun _ => ⟨rfl, rfl, rfl⟩

theorem witness_ReadOnlyRegistersIgnoreWrites : (halted [.write 4 0x10#8 1#32]).status.busy = false ∧
    (halted [.write 4 0x10#8 1#32]).inputs = .write 4 0x10#8 1#32 :: [] := by decide

theorem witness_HaltedBlockIgnoresTheHost :
    (let s := halted [.write 4 0x00#8 0x32#32]
     s.status.fault = true ∧ s.status.busy = false ∧ s.inputs = .write 4 0x00#8 0x32#32 :: []) ∧
    (let s := halted [.read 4 0x20#8]
     s.status.fault = true ∧ s.status.busy = false ∧ s.inputs = .read 4 0x20#8 :: []) := by decide

theorem witness_OnlyResetLeavesTheHalt :
    let s := halted [.write 4 0x04#8 3#32]
    s.status.fault = true ∧ s.status.busy = false ∧ (∀ rest, s.inputs ≠ .reset :: rest) ∧ ∃ t, step s = .next t :=
  ⟨rfl, rfl, fun rest h => by simp [halted, idle] at h, ⟨_, rfl⟩⟩

theorem witness_MalformedAccessIsRefused :
    ((idle 8 [] [.read 2 0x10#8]).inputs = .read 2 0x10#8 :: [] ∧ (2 ≠ 4 ∨ (0x10#8).toNat % 4 ≠ 0)) ∧
    ((idle 8 [] [.write 4 0x03#8 1#32]).inputs = .write 4 0x03#8 1#32 :: [] ∧ (4 ≠ 4 ∨ (0x03#8).toNat % 4 ≠ 0)) := by decide

theorem witness_HeldAccessWaitsForTheEngine :
    let s := { bare 0#32 with inputs := [writeReg .arg0 1#32], delay := 5 }
    s.status.busy = true ∧ s.inputs = writeReg .arg0 1#32 :: [] ∧ (writeReg .arg0 1#32).held = true ∧ ∃ t, step s = .next t :=
  ⟨rfl, rfl, rfl, ⟨_, rfl⟩⟩

theorem witness_StatusReadWhilePending :
    let s := { bare 0#32 with inputs := [.read 4 0x0C#8], delay := 1 }
    s.status.busy = true ∧ s.inputs = .read 4 0x0C#8 :: [] ∧ s.delay ≠ 0 ∧ ({ s with delay := 0 } : State).delay = 0 := by
  decide

/-- Halted; no vector; the first byte past the vector; the last byte of it, with a pad position. -/
theorem witness_dataClauses : ∀ x ∈ [Input.read 4 0x20#8, .write 4 0x20#8 0x1FF#32],
    ((halted [x]).status.busy = false ∧ (halted [x]).status.fault = true ∧ (halted [x]).inputs = [x]) ∧
    (let s := { State.reset with inputs := [x] }
     s.status.busy = false ∧ s.status.fault = false ∧ s.inputs = [x] ∧ s.status.valid = false ∧ s.checks = .checked) ∧
    (let s := { idle 15 [] [x] with daddr := 2#32 }
     s.status.busy = false ∧ s.status.fault = false ∧ s.inputs = [x] ∧ s.status.valid = true ∧
       nbytes s.n ≤ s.daddr.toNat ∧ s.checks = .checked) ∧
    (let s := { idle 15 [] [x] with daddr := 1#32 }
     s.status.busy = false ∧ s.status.fault = false ∧ s.inputs = [x] ∧ s.status.valid = true ∧ s.n ≤ s.maxBits ∧
       s.daddr.toNat < nbytes s.n) := by decide

end Sys2Proof.Tests
end

section
/-! Proofs for 00_scope.md: the parameters MAX_BITS and CHECKS (R10, R11) are constants of the block. Each operation of the
port and of the engine keeps them, hence every step does. -/

namespace Sys2Proof.Machine

/-- `t` has the capacity and the build of `s`. -/
def sameParameters (s t : State) : Prop := t.capacity = s.capacity ∧ t.checks = s.checks

theorem sameParameters_bodyState (i : Instr) (s : State) : sameParameters s (bodyState i s) := by
  rw [bodyState_frame]
  exact ⟨rfl, rfl⟩

theorem engineStep_keepsParameters {s t : State} (h : engineStep s = .next t) : sameParameters s t := by
  obtain ⟨-, _, _, _, -, rfl⟩ | ⟨_, _, rfl⟩ | ⟨i, -, -, rfl⟩ := engineStep_next h
  · exact ⟨rfl, rfl⟩
  · exact ⟨rfl, rfl⟩
  · exact sameParameters_bodyState i s

theorem dataRead_keepsParameters {s t : State} (h : dataRead s = .next t) : sameParameters s t := by
  obtain ⟨-, rfl⟩ | ⟨-, -, _, -, rfl⟩ | ⟨-, -, -, -, rfl⟩ := dataRead_next h <;> exact ⟨rfl, rfl⟩

theorem dataWrite_keepsParameters {s t : State} {w : Word} (h : dataWrite w s = .next t) : sameParameters s t := by
  obtain ⟨-, rfl⟩ | ⟨-, -, _, -, rfl⟩ | ⟨-, -, -, -, rfl⟩ := dataWrite_next h <;> exact ⟨rfl, rfl⟩

/-- A port read that answers a next state is a DATA read, or returns a value and does nothing else (10_state.md R37,
20_memory.md R73). -/
theorem portRead_next {off : PortOffset} {s t : State} (h : portRead off s = .next t) :
    dataRead s = .next t ∨ ∃ v, t = s.returning v := by
  unfold portRead at h
  split at h
  · cases h
    exact .inr ⟨_, rfl⟩
  · exact .inl h
  · cases h
    exact .inr ⟨_, rfl⟩

theorem portRead_keepsParameters {off : PortOffset} {s t : State} (h : portRead off s = .next t) :
    sameParameters s t := by
  obtain hd | ⟨_, rfl⟩ := portRead_next h
  · exact dataRead_keepsParameters hd
  · exact ⟨rfl, rfl⟩

/-- No register write reaches the parameters: CAPACITY is read-only (10_state.md R43, R47). -/
theorem regWrite_keepsParameters {r : Reg} {v : Word} {s t : State} (h : regWrite r v s = .next t) :
    sameParameters s t := by
  cases r with
  | data => exact dataWrite_keepsParameters h
  | _ =>
    cases h
    exact ⟨rfl, rfl⟩

/-- A port write that answers a next state is ignored, or is the write of a register (20_memory.md R73, R92). -/
theorem portWrite_next {off : PortOffset} {v : Word} {s t : State} (h : portWrite off v s = .next t) :
    t = s ∨ ∃ r, Reg.ofOffset off = some r ∧ s.status.fault = false ∧ regWrite r v s = .next t := by
  unfold portWrite at h
  split at h
  · cases h
    exact .inl rfl
  · rename_i hf
    split at h
    · cases h
      exact .inl rfl
    · rename_i r hr
      exact .inr ⟨r, hr, by simpa using hf, h⟩

theorem portWrite_keepsParameters {off : PortOffset} {v : Word} {s t : State} (h : portWrite off v s = .next t) :
    sameParameters s t := by
  obtain rfl | ⟨_, -, -, hr⟩ := portWrite_next h
  · exact ⟨rfl, rfl⟩
  · exact regWrite_keepsParameters hr

/-- An access acts on the state with the input taken off and the delay counted down, which has the parameters of `s`; an
access without meaning answers no next state (20_memory.md R71). -/
theorem takeInput_keepsParameters {x : Input} {rest : List Input} {s t : State} (h : takeInput x rest s = .next t) :
    sameParameters s t := by
  cases x with
  | read width off =>
    simp only [takeInput] at h
    split at h
    · exact portRead_keepsParameters (s := { s.waited with inputs := rest }) h
    · cases h
  | write width off v =>
    simp only [takeInput] at h
    split at h
    · exact portWrite_keepsParameters (s := { s.waited with inputs := rest }) h
    · cases h
  | poll =>
    cases h
    exact ⟨rfl, rfl⟩
  | reset =>
    cases h
    exact ⟨rfl, rfl⟩

theorem step_keepsParameters {s t : State} (h : step s = .next t) : sameParameters s t := by
  obtain ⟨-, hs⟩ | ⟨_, _, -, -, hs⟩ | ⟨-, -, hs⟩ := step_cases s <;> rw [hs] at h
  · exact engineStep_keepsParameters h
  · exact takeInput_keepsParameters h
  · cases h
    exact ⟨rfl, rfl⟩

/-- Settles O14: each of the three moves of a step (the engine's, one input's, none) keeps the parameters; a reset input
rebuilds the state from them. -/
theorem stepKeepsParameters : Obligations.StepKeepsParameters := by
  intro s t h
  exact step_keepsParameters h

end Sys2Proof.Machine
end

section
/-! What a legal access does at each offset, and what an input that answers a next state has done (20_memory.md R71,
R73, R84, R85, R92). -/

namespace Sys2Proof.Machine

/-! ### The port -/

theorem portRead_unmapped {off : PortOffset} (hr : Reg.ofOffset off = none) (s : State) :
    portRead off s = .next (s.returning 0#32) := by
  simp only [portRead, hr]

theorem portRead_data {off : PortOffset} (hr : Reg.ofOffset off = some .data) (s : State) :
    portRead off s = dataRead s := by
  simp only [portRead, hr]

theorem portRead_reg {off : PortOffset} {r : Reg} (hr : Reg.ofOffset off = some r) (hd : r ≠ .data) (s : State) :
    portRead off s = .next (s.returning (regValue r s)) := by
  simp only [portRead, hr]

theorem portWrite_halted {s : State} (hf : s.status.fault = true) (off : PortOffset) (v : Word) :
    portWrite off v s = .next s := if_pos hf

theorem portWrite_unmapped {off : PortOffset} (hr : Reg.ofOffset off = none) (v : Word) (s : State) :
    portWrite off v s = .next s := by
  simp only [portWrite, hr, ite_self]

theorem portWrite_reg {s : State} {off : PortOffset} {r : Reg} (hf : s.status.fault = false)
    (hr : Reg.ofOffset off = some r) (v : Word) : portWrite off v s = regWrite r v s := by
  simp [portWrite, hf, hr]

theorem portRead_status (s : State) :
    portRead Reg.status.offset s = .next (s.returning s.status.word) := rfl

/-! ### Inputs -/

/-- While a command is pending, the one host read that is not held is that of STATUS (20_memory.md R85). -/
theorem read_of_not_held {width : Nat} {off : PortOffset} (h : (Input.read width off).held = false) :
    off = Reg.status.offset := by
  simp only [Input.held, Bool.not_eq_false', Bool.and_eq_true, beq_iff_eq] at h
  exact h.2

/-- The state an input acts on: the input taken off, the engine's delay counted down. -/
def State.taking (rest : List Input) (s : State) : State := { s.waited with inputs := rest }

theorem takeInput_read {w : Nat} {off : PortOffset} (h : accessLegal w off = true) (rest : List Input) (s : State) :
    takeInput (.read w off) rest s = portRead off (s.taking rest) := if_pos h

theorem takeInput_write {w : Nat} {off : PortOffset} (h : accessLegal w off = true) (v : Word) (rest : List Input)
    (s : State) : takeInput (.write w off v) rest s = portWrite off v (s.taking rest) := if_pos h

theorem takeInput_read_illegal {w : Nat} {off : PortOffset} (h : accessLegal w off = false) (rest : List Input)
    (s : State) : takeInput (.read w off) rest s = .refused .portAccess := if_neg (by simp [h])

theorem takeInput_write_illegal {w : Nat} {off : PortOffset} (h : accessLegal w off = false) (v : Word)
    (rest : List Input) (s : State) : takeInput (.write w off v) rest s = .refused .portAccess := if_neg (by simp [h])

/-- What an input can do that answers a next state: a legal access to the port, a POLL read, or reset. -/
theorem takeInput_next {x : Input} {rest : List Input} {s t : State} (h : takeInput x rest s = .next t) :
    (∃ w off, x = .read w off ∧ portRead off (s.taking rest) = .next t) ∨
    (∃ w off v, x = .write w off v ∧ portWrite off v (s.taking rest) = .next t) ∨
    (x = .poll ∧ t = pollOnce rest (.poll :: rest) s.waited) ∨
    (x = .reset ∧ t = { s.afterReset with inputs := rest }) := by
  cases x with
  | read w off =>
    cases hl : accessLegal w off with
    | true => exact .inl ⟨w, off, rfl, takeInput_read hl rest s ▸ h⟩
    | false => exact nomatch (takeInput_read_illegal hl rest s).symm.trans h
  | write w off v =>
    cases hl : accessLegal w off with
    | true => exact .inr (.inl ⟨w, off, v, rfl, takeInput_write hl v rest s ▸ h⟩)
    | false => exact nomatch (takeInput_write_illegal hl v rest s).symm.trans h
  | poll => cases h; exact .inr (.inr (.inl ⟨rfl, rfl⟩))
  | reset => cases h; exact .inr (.inr (.inr ⟨rfl, rfl⟩))

end Sys2Proof.Machine
end

section
/-! Proofs for 10_state.md, the invariant: reset satisfies it, every move keeps it, and from it nothing stops a step but
a refusal (R33, R34, R71, R92, R271, R275, R280, R281). -/

namespace Sys2Proof.Machine

/-! ### The invariant of the vector -/

/-- The part of the invariant that speaks of the vector: the storage, BITCOUNT and VALID. -/
structure State.VectorInv (s : State) : Prop where
  canonical : s.storage.wf
  inside : s.storage.below (nbytes s.maxBits)
  fits : s.n ≤ s.maxBits
  empty : s.status.valid = false → s.n = 0

theorem State.Inv.vector {s : State} (h : s.Inv) : s.VectorInv := ⟨h.canonical, h.inside, h.fits, h.empty⟩

/-- A write to a byte that can hold a vector bit stays inside the storage. -/
theorem byteIndex_lt_nbytes {i n : Nat} (h : i < n) : i / 8 < nbytes n := by unfold nbytes; omega

theorem State.VectorInv.withResult {s : State} (h : s.VectorInv) (v : Word) : (s.withResult v).VectorInv :=
  ⟨h.canonical, h.inside, h.fits, h.empty⟩

theorem State.VectorInv.withSearch {s : State} (h : s.VectorInv) (r : Option Nat) : (s.withSearch r).VectorInv := by
  cases r <;> exact ⟨h.canonical, h.inside, h.fits, h.empty⟩

theorem State.VectorInv.withStorage {s : State} (h : s.VectorInv) {m : Memory} (hm : m.wf)
    (hb : m.below (nbytes s.maxBits)) : (s.withStorage m).VectorInv := ⟨hm, hb, h.fits, h.empty⟩

theorem State.VectorInv.writeBit {s : State} (h : s.VectorInv) {i : Nat} (hi : i < s.n) (b : Bool) :
    (s.withStorage (s.storage.writeBit i b)).VectorInv :=
  h.withStorage (Memory.wf_writeBit i b h.canonical)
    (Memory.below_writeBit b h.inside (byteIndex_lt_nbytes (Nat.lt_of_lt_of_le hi h.fits)))

theorem State.VectorInv.regionOp {s : State} (h : s.VectorInv) (op : RegionKind) {lo hi : Nat} (hle : lo ≤ hi)
    (hhi : hi < s.n) : (s.withStorage (regionOp op lo hi s.storage)).VectorInv :=
  h.withStorage (wf_regionOp op hle h.canonical)
    (below_regionOp op hle (byteIndex_lt_nbytes (Nat.lt_of_lt_of_le hhi h.fits)) h.inside)

/-- A new length within the capacity, on a storage inside the bounds, with VALID = 1 (R33). -/
theorem State.VectorInv.resized {s : State} {m : Memory} {c : Word} (hm : m.wf)
    (hb : m.below (nbytes s.maxBits)) (hc : c.toNat ≤ s.maxBits) (hv : s.status.valid = true) :
    ((s.withStorage m).withBitcount c).VectorInv :=
  ⟨hm, hb, hc, fun h => nomatch hv.symm.trans h⟩

/-- Every command's body keeps the vector's invariant: it stores below `nbytes(n)`, or below the `nbytes` of a new length
within the capacity. -/
theorem State.VectorInv.bodyState {s : State} (h : s.VectorInv) {i : Instr} (hb : bodyRuns i s) :
    (bodyState i s).VectorInv := by
  cases i with
  | nop => exact h
  | create =>
    exact .resized (s := s.withValid true) (wf_zeroFill h.canonical) (below_zeroFill h.inside) hb rfl
  | resize =>
    obtain ⟨hv, hc⟩ := hb
    exact .resized (wf_clearGrowth h.canonical) (below_clearGrowth h.inside (nbytes_mono hc)) hc hv
  | destroy => exact ⟨h.canonical, h.inside, Nat.zero_le _, fun _ => rfl⟩
  | get | countSet | countClear => exact h.withResult _
  | set | clear | toggle =>
    obtain ⟨-, hi, -⟩ := hb
    exact h.writeBit hi _
  | setRegion | clearRegion | toggleRegion =>
    obtain ⟨-, h0, h1, -⟩ := hb
    exact h.regionOp _ min_le_max (max_lt h0 h1)
  | setAll | clearAll | toggleAll =>
    obtain ⟨-, hn, -⟩ := hb
    exact h.regionOp _ (Nat.zero_le _) (Nat.sub_one_lt hn)
  | _ => exact h.withSearch _

/-! ### The invariant and the ends of a command -/

/-- The invariant is the vector's and three facts about STATUS. -/
theorem State.VectorInv.inv {s : State} (h : s.VectorInv) (hidle : s.status.fault = true → s.status.busy = false)
    (hfault : s.status.fault = s.status.ecode.fatal)
    (herr : s.status.err = decide (s.status.ecode = .allocationFailure)) : s.Inv :=
  ⟨h.canonical, h.inside, h.fits, h.empty, hidle, hfault, herr⟩

/-- The invariant speaks of STATUS, BITCOUNT, the storage and the capacity only. -/
theorem State.Inv.congr {s t : State} (h : s.Inv) (hst : t.status = s.status) (hn : t.bitcount = s.bitcount)
    (hm : t.storage = s.storage) (hc : t.capacity = s.capacity) : t.Inv := by
  cases s; cases t
  cases hst; cases hn; cases hm; cases hc
  exact ⟨h.canonical, h.inside, h.fits, h.empty, h.idleHalt, h.faultCode, h.errCode⟩

/-- A pending command stands in a block that is not halted (R92). -/
theorem State.Inv.fault_of_busy {s : State} (h : s.Inv) (hb : s.status.busy = true) : s.status.fault = false := by
  cases hf : s.status.fault with
  | false => rfl
  | true => exact absurd (h.idleHalt hf) (by simp [hb])

theorem State.VectorInv.haltedBy {s : State} (h : s.VectorInv) {c : ECode} (hc : c.fatal = true) (o : Byte) (v : Word) :
    (s.haltedBy c o v).Inv := by
  refine State.VectorInv.inv ⟨h.canonical, h.inside, h.fits, h.empty⟩ (fun _ => rfl) hc.symm ?_
  cases c with
  | none | allocationFailure => cases hc
  | _ => rfl

theorem State.VectorInv.reportedBy {s : State} (h : s.VectorInv) (hf : s.status.fault = false) (o : Byte) (v : Word) :
    (s.reportedBy .allocationFailure o v).Inv :=
  State.VectorInv.inv ⟨h.canonical, h.inside, h.fits, h.empty⟩ (fun _ => rfl) hf rfl

theorem State.VectorInv.succeeded {s : State} (h : s.VectorInv) (hf : s.status.fault = false) : s.succeeded.Inv :=
  State.VectorInv.inv ⟨h.canonical, h.inside, h.fits, h.empty⟩ (fun _ => rfl) hf rfl

/-- A DATA access that faults in an idle block halts it as a command does (R275). -/
theorem State.fatalEntry_of_idle {s : State} (hb : s.status.busy = false) (c : ECode) (o : Byte) (v : Word) :
    s.fatalEntry c o v = s.haltedBy c o v := by
  simp only [State.fatalEntry, State.haltedBy, hb]

theorem bodyState_fault (i : Instr) (s : State) : (bodyState i s).status.fault = s.status.fault := by
  rw [bodyState_frame]

/-! ### Each move keeps the invariant -/

theorem engineStep_keepsInv {s t : State} (hs : s.Inv) (hb : s.status.busy = true) (h : engineStep s = .next t) :
    t.Inv := by
  have hf := hs.fault_of_busy hb
  obtain ⟨-, c, o, v, hc, rfl⟩ | ⟨o, v, rfl⟩ | ⟨i, -, hi, rfl⟩ := engineStep_next h
  · exact hs.vector.haltedBy hc o v
  · exact hs.vector.reportedBy hf o v
  · exact (hs.vector.bodyState hi).succeeded ((bodyState_fault i s).trans hf)

theorem dataRead_keepsInv {s t : State} (hs : s.Inv) (hb : s.status.busy = false)
    (h : dataRead s = .next t) : t.Inv := by
  obtain ⟨-, rfl⟩ | ⟨-, -, c, hc, rfl⟩ | ⟨-, -, -, -, rfl⟩ := dataRead_next h
  · exact hs.congr rfl rfl rfl rfl
  · have hr : (s.drawn.returning ((Config.freeByte s.draws).setWidth 32)).Inv := hs.congr rfl rfl rfl rfl
    rw [State.fatalEntry_of_idle (s := s.drawn.returning _) hb]
    exact hr.vector.haltedBy hc _ _
  · exact hs.congr rfl rfl rfl rfl

theorem dataWrite_keepsInv {s t : State} {w : Word} (hs : s.Inv) (hb : s.status.busy = false)
    (h : dataWrite w s = .next t) : t.Inv := by
  obtain ⟨-, rfl⟩ | ⟨-, -, c, hc, rfl⟩ | ⟨-, -, hk, -, rfl⟩ := dataWrite_next h
  · exact hs
  · rw [State.fatalEntry_of_idle hb]
    exact hs.vector.haltedBy hc _ _
  · exact State.VectorInv.inv ⟨Memory.wf_writeByte _ _ hs.canonical,
      Memory.below_writeByte _ hs.inside (Nat.lt_of_lt_of_le hk (nbytes_mono hs.fits)), hs.fits, hs.empty⟩
      hs.idleHalt hs.faultCode hs.errCode

/-- A port read of an idle block is a DATA read, or returns a value and does nothing else. -/
theorem portRead_keepsInv {off : PortOffset} {s t : State} (hs : s.Inv) (hb : s.status.busy = false)
    (h : portRead off s = .next t) : t.Inv := by
  obtain hd | ⟨v, rfl⟩ := portRead_next h
  · exact dataRead_keepsInv hs hb hd
  · exact hs.congr rfl rfl rfl rfl

theorem issue_keepsInv {s : State} (hs : s.Inv) (hf : s.status.fault = false) (w : Word) : (issue w s).Inv :=
  State.VectorInv.inv ⟨hs.canonical, hs.inside, hs.fits, hs.empty⟩ (fun h => nomatch hf.symm.trans h) hs.faultCode
    hs.errCode

theorem regWrite_keepsInv {r : Reg} {v : Word} {s t : State} (hs : s.Inv) (hb : s.status.busy = false)
    (hf : s.status.fault = false) (h : regWrite r v s = .next t) : t.Inv := by
  cases r with
  | cmd => cases h; exact issue_keepsInv hs hf v
  | data => exact dataWrite_keepsInv hs hb h
  | _ => cases h; exact hs.congr rfl rfl rfl rfl

theorem portWrite_keepsInv {off : PortOffset} {v : Word} {s t : State} (hs : s.Inv) (hb : s.status.busy = false)
    (h : portWrite off v s = .next t) : t.Inv := by
  obtain rfl | ⟨r, -, hf, hr⟩ := portWrite_next h
  · exact hs
  · exact regWrite_keepsInv hs hb hf hr

theorem State.resetOf_inv (c : Word) (k : Checks) : (State.resetOf c k).Inv where
  canonical := Memory.wf_nil
  inside _ h := absurd h List.not_mem_nil
  fits := Nat.zero_le _
  empty _ := rfl
  idleHalt _ := rfl
  faultCode := rfl
  errCode := rfl

theorem State.Inv.taking {s : State} (hs : s.Inv) (rest : List Input) : (s.taking rest).Inv :=
  hs.congr rfl rfl rfl rfl

theorem takeInput_keepsInv {x : Input} {rest : List Input} {s t : State} (hs : s.Inv)
    (hx : s.status.busy = true → x.held = false) (h : takeInput x rest s = .next t) : t.Inv := by
  have hs' := hs.taking rest
  obtain ⟨w, off, rfl, hp⟩ | ⟨w, off, v, rfl, hp⟩ | ⟨rfl, rfl⟩ | ⟨rfl, rfl⟩ := takeInput_next h
  · cases hb : s.status.busy with
    | false => exact portRead_keepsInv hs' hb hp
    | true =>
      rw [read_of_not_held (hx hb), portRead_status] at hp
      cases hp
      exact hs'.congr rfl rfl rfl rfl
  · cases hb : s.status.busy with
    | false => exact portWrite_keepsInv hs' hb hp
    | true => exact absurd (hx hb) (by simp [Input.held])
  · exact hs.congr rfl rfl rfl rfl
  · exact (State.resetOf_inv s.capacity s.checks).congr rfl rfl rfl rfl

theorem step_keepsInv {s t : State} (hs : s.Inv) (h : step s = .next t) : t.Inv := by
  obtain ⟨hb, e⟩ | ⟨x, rest, -, hx, e⟩ | ⟨-, -, e⟩ := step_cases s <;> rw [e] at h
  · exact engineStep_keepsInv hs hb h
  · exact takeInput_keepsInv hs (fun hb => (hx hb).1) h
  · cases h
    exact hs

/-- Settles O12: the engine's step halts, reports or runs a body, each from a block that is not halted; an input that is
not held while a command is pending does not touch what the invariant speaks of. -/
theorem stepKeepsInvariant : Obligations.StepKeepsInvariant := by
  intro s t hs h
  exact step_keepsInv hs h

/-- Settles O11. -/
theorem resetSatisfiesInvariant : Obligations.ResetSatisfiesInvariant :=
  State.resetOf_inv Config.referenceMaxBits .checked

/-! ### From the invariant nothing stops but a refusal -/

/-- A result that is a next state, or the refusal of the unchecked build, which the checked build does not give. -/
def answers (k : Checks) (r : Result) : Prop :=
  (∃ t, r = .next t) ∨ (k = .unchecked ∧ r = .refused .uncheckedBuild)

theorem answers_next (k : Checks) (t : State) : answers k (.next t) := .inl ⟨t, rfl⟩

theorem answers.ne_fault {k : Checks} {r : Result} (h : answers k r) (f : Fault) : r ≠ .fault f := by
  obtain ⟨t, rfl⟩ | ⟨-, rfl⟩ := h <;> exact nofun

theorem answers.next_of_checked {r : Result} (h : answers .checked r) : ∃ t, r = .next t :=
  h.resolve_right nofun

theorem raiseFatal_answers (c : ECode) (o : Byte) (v : Word) (s : State) : answers s.checks (raiseFatal c o v s) := by
  cases h : s.checks with
  | checked => exact .inl ⟨_, raiseFatal_checked h c o v⟩
  | unchecked => exact .inr ⟨rfl, raiseFatal_unchecked h c o v⟩

/-- Where the in-use bytes exist, every command answers. -/
theorem exec_answers {s : State} (hs : s.storageFits = true) (i : Instr) : answers s.checks (exec i s) := by
  obtain ⟨c, v, -, e⟩ | ⟨-, -, e⟩ | ⟨hf, -⟩ | ⟨-, e⟩ := exec_cases i s
  · exact e ▸ raiseFatal_answers c (opcode i) v s.withoutBusy
  · exact .inl ⟨_, e⟩
  · exact nomatch hs.symm.trans hf
  · exact .inl ⟨_, e⟩

theorem engineStep_answers {s : State} (hs : s.storageFits = true) : answers s.checks (engineStep s) := by
  cases hd : decode s.cmd with
  | ok i => exact engineStep_ok hd ▸ exec_answers hs i
  | error e => exact engineStep_error hd ▸ raiseFatal_answers _ _ _ s.withoutBusy

theorem dataRead_answers {s : State} (hs : s.storageFits = true) : answers s.checks (dataRead s) := by
  cases hf : s.status.fault with
  | true => exact .inl ⟨_, dataRead_halted hf⟩
  | false =>
    cases hv : s.status.valid with
    | false =>
      rw [dataRead_noInstance hf hv]
      exact raiseFatal_answers _ _ _ (s.drawn.returning _)
    | true =>
      by_cases hk : s.daddr.toNat < nbytes s.n
      · rw [dataRead_inRange hf hv hk, checkStorage_pass hs]
        exact answers_next _ _
      · rw [dataRead_outOfRange hf hv (Nat.le_of_not_lt hk)]
        exact raiseFatal_answers _ _ _ (s.drawn.returning _)

theorem dataWrite_answers {s : State} (hs : s.storageFits = true) (hf : s.status.fault = false) (w : Word) :
    answers s.checks (dataWrite w s) := by
  cases hv : s.status.valid with
  | false => exact dataWrite_noInstance hf hv w ▸ raiseFatal_answers _ _ _ s
  | true =>
    by_cases hk : s.daddr.toNat < nbytes s.n
    · rw [dataWrite_inRange hf hv hk, checkStorage_pass hs]
      exact answers_next _ _
    · exact dataWrite_outOfRange hf hv (Nat.le_of_not_lt hk) w ▸ raiseFatal_answers _ _ _ s

theorem portRead_answers {s : State} (hs : s.storageFits = true) (off : PortOffset) :
    answers s.checks (portRead off s) := by
  cases hr : Reg.ofOffset off with
  | none => exact portRead_unmapped hr s ▸ answers_next _ _
  | some r =>
    by_cases hd : r = .data
    · exact portRead_data (hd ▸ hr) s ▸ dataRead_answers hs
    · exact portRead_reg hr hd s ▸ answers_next _ _

theorem regWrite_answers {s : State} (hs : s.storageFits = true) (hf : s.status.fault = false) (r : Reg) (v : Word) :
    answers s.checks (regWrite r v s) := by
  cases r with
  | data => exact dataWrite_answers hs hf v
  | _ => exact answers_next _ _

theorem portWrite_answers {s : State} (hs : s.storageFits = true) (off : PortOffset) (v : Word) :
    answers s.checks (portWrite off v s) := by
  cases hf : s.status.fault with
  | true => exact portWrite_halted hf off v ▸ answers_next _ _
  | false =>
    cases hr : Reg.ofOffset off with
    | none => exact portWrite_unmapped hr v s ▸ answers_next _ _
    | some r => exact portWrite_reg hf hr v ▸ regWrite_answers hs hf r v

/-- An input answers, unless it is an access without meaning (R71). -/
theorem takeInput_answers {s : State} (hs : s.storageFits = true) (x : Input) (rest : List Input) :
    answers s.checks (takeInput x rest s) ∨ (x.wf = false ∧ takeInput x rest s = .refused .portAccess) := by
  cases x with
  | read w off =>
    cases hl : accessLegal w off with
    | true => exact .inl (takeInput_read hl rest s ▸ portRead_answers (s := s.taking rest) hs off)
    | false => exact .inr ⟨hl, takeInput_read_illegal hl rest s⟩
  | write w off v =>
    cases hl : accessLegal w off with
    | true => exact .inl (takeInput_write hl v rest s ▸ portWrite_answers (s := s.taking rest) hs off v)
    | false => exact .inr ⟨hl, takeInput_write_illegal hl v rest s⟩
  | poll => exact .inl (answers_next _ _)
  | reset => exact .inl (answers_next _ _)

theorem step_answers {s : State} (hs : s.storageFits = true) :
    answers s.checks (step s) ∨ ((∃ x ∈ s.inputs.head?, x.wf = false) ∧ step s = .refused .portAccess) := by
  obtain ⟨-, e⟩ | ⟨x, rest, hi, -, e⟩ | ⟨-, -, e⟩ := step_cases s <;> rw [e]
  · exact .inl (engineStep_answers hs)
  · refine (takeInput_answers hs x rest).imp_right fun ⟨hx, hr⟩ => ⟨⟨x, ?_, hx⟩, hr⟩
    rw [hi]
    rfl
  · exact .inl (answers_next _ _)

/-- Settles O13: the invariant's `n <= MAX_BITS` makes the in-use bytes exist, so only a refusal can stop a step. -/
theorem invariantStatesNeverStop : Obligations.InvariantStatesNeverStop := by
  intro s hs
  have key := step_answers (storageFits_of_le hs.fits)
  refine ⟨fun f => ?_, fun hc hx => ?_⟩
  · obtain h | ⟨-, h⟩ := key
    · exact h.ne_fault f
    · rw [h]
      exact nofun
  · obtain h | ⟨⟨x, hm, hw⟩, -⟩ := key
    · rw [hc] at h
      obtain ⟨t, ht⟩ := h.next_of_checked
      exact ⟨t, ht, step_keepsInv hs ht⟩
    · exact nomatch (hx x hm).symm.trans hw

end Sys2Proof.Machine
end

section
/-! Two runs of one command side by side: states that pass every check alike give results of one kind, and the results
are related when the ends of the command are. -/

namespace Sys2Proof.Machine

/-- The fields the checks of a command look at are equal, of the operands those it reads (30_encoding.md R116). -/
structure checksAlike (i : Instr) (s t : State) : Prop where
  arg0 : readsArg0 i = true → s.arg0 = t.arg0
  arg1 : readsArg1 i = true → s.arg1 = t.arg1
  valid : s.status.valid = t.status.valid
  bitcount : s.bitcount = t.bitcount
  capacity : s.capacity = t.capacity
  checks : s.checks = t.checks

variable {R : State → State → Prop} {i : Instr} {s t : State} {k l : Result}

theorem checksAlike.n (h : checksAlike i s t) : s.n = t.n := congrArg BitVec.toNat h.bitcount

theorem checksAlike.maxBits (h : checksAlike i s t) : s.maxBits = t.maxBits := congrArg BitVec.toNat h.capacity

theorem checksAlike.storageFits (h : checksAlike i s t) : s.storageFits = t.storageFits := by
  rw [State.storageFits, State.storageFits, h.n, h.maxBits]

/-! ### The checks; what a passed check says is at hand in the rest of the command -/

theorem checksAlike.valid_rel (h : checksAlike i s t)
    (hf : ∀ c v, relResult R (commandFatal i c v s) (commandFatal i c v t))
    (hk : s.status.valid = true → relResult R k l) : relResult R (checkInstance i s k) (checkInstance i t l) := by
  cases hv : s.status.valid with
  | true => rw [checkInstance_pass hv, checkInstance_pass (h.valid ▸ hv)]; exact hk hv
  | false => rw [checkInstance_fail hv, checkInstance_fail (h.valid ▸ hv)]; exact hf _ _

theorem checksAlike.index_rel (h : checksAlike i s t) {x y : Word} (hxy : x = y)
    (hf : ∀ c v, relResult R (commandFatal i c v s) (commandFatal i c v t))
    (hk : x.toNat < s.n → relResult R k l) : relResult R (checkIndex i x s k) (checkIndex i y t l) := by
  subst hxy
  by_cases hx : x.toNat < s.n
  · rw [checkIndex_pass hx, checkIndex_pass (h.n ▸ hx)]; exact hk hx
  · rw [checkIndex_fail (Nat.le_of_not_lt hx), checkIndex_fail (h.n ▸ Nat.le_of_not_lt hx)]; exact hf _ _

theorem checksAlike.capacity_rel (h : checksAlike i s t) {c d : Word} (hcd : c = d)
    (hr : R (s.reportedBy .allocationFailure (opcode i) c) (t.reportedBy .allocationFailure (opcode i) d))
    (hk : c.toNat ≤ s.maxBits → relResult R k l) : relResult R (checkCapacity i c s k) (checkCapacity i d t l) := by
  subst hcd
  by_cases hc : c.toNat ≤ s.maxBits
  · rw [checkCapacity_pass hc, checkCapacity_pass (h.maxBits ▸ hc)]; exact hk hc
  · rw [checkCapacity_fail (Nat.lt_of_not_le hc), checkCapacity_fail (h.maxBits ▸ Nat.lt_of_not_le hc)]; exact hr

theorem checksAlike.storage_rel (h : checksAlike i s t) (hk : s.storageFits = true → relResult R k l) :
    relResult R (checkStorage s k) (checkStorage t l) := by
  cases hs : s.storageFits with
  | true => rw [checkStorage_pass hs, checkStorage_pass (h.storageFits ▸ hs)]; exact hk hs
  | false => rw [checkStorage_fail hs, checkStorage_fail (h.storageFits ▸ hs)]; exact relResult_fault _

/-- A command in two such states: both fail alike, or both run their body. -/
theorem checksAlike.exec_rel (h : checksAlike i s t)
    (halt : ∀ c v, R (s.haltedBy c (opcode i) v) (t.haltedBy c (opcode i) v))
    (report : i = .create ∨ i = .resize → R (s.reportedBy .allocationFailure (opcode i) s.arg0)
      (t.reportedBy .allocationFailure (opcode i) t.arg0))
    (body : bodyRuns i s → R (bodyState i s).succeeded (bodyState i t).succeeded) :
    relResult R (exec i s) (exec i t) := by
  have hf : ∀ c v, relResult R (commandFatal i c v s) (commandFatal i c v t) :=
    fun c v => commandFatal_rel i c v h.checks (halt c v)
  cases i with
  | nop => exact body trivial
  | create => exact h.capacity_rel (h.arg0 rfl) (report (.inl rfl)) body
  | resize => exact h.valid_rel hf fun hv => h.capacity_rel (h.arg0 rfl) (report (.inr rfl)) fun hc => body ⟨hv, hc⟩
  | destroy => exact h.valid_rel hf body
  | setRegion | clearRegion | toggleRegion =>
    exact h.valid_rel hf fun hv => h.index_rel (h.arg0 rfl) hf fun h0 => h.index_rel (h.arg1 rfl) hf fun h1 =>
      h.storage_rel fun hs => body ⟨hv, h0, h1, hs⟩
  | countSet | countClear => exact h.valid_rel hf fun hv => h.storage_rel fun hs => body ⟨hv, hs⟩
  | setAll | clearAll | toggleAll | firstClear | firstSet | lastClear | lastSet =>
    exact h.valid_rel hf fun hv => checkNonempty_rel h.n hf fun hn => h.storage_rel fun hs => body ⟨hv, hn, hs⟩
  | get | set | clear | toggle | findNextClear | findNextSet | findPrevClear | findPrevSet =>
    exact h.valid_rel hf fun hv => h.index_rel (h.arg0 rfl) hf fun h0 => h.storage_rel fun hs => body ⟨hv, h0, hs⟩

end Sys2Proof.Machine
end

section
/-! Proofs for 10_state.md, what the host can never see: every operation reads the storage only at positions that hold a
vector bit (R34, R48, R76, R77, R312). -/

namespace Sys2Proof.Machine

/-! ### Storages that agree below n -/

/-- Two storages hold the same `n` vector bits. -/
def bitsAgree (n : Nat) (m m' : Memory) : Prop := ∀ i < n, m.bit i = m'.bit i

theorem countSet_congr {n : Nat} {m m' : Memory} (h : bitsAgree n m m') : countSet n m = countSet n m' := by
  rw [countSet_eq, countSet_eq]
  exact List.countP_congr fun i hi => by rw [h i (List.mem_range.mp hi)]

/-- The contract of `findNext` (R240) determines its result from the vector bits. -/
theorem findNext_congr {n : Nat} {m m' : Memory} (h : bitsAgree n m m') (t : Bool) {f : Nat} (hf : f < n) :
    findNext t n f m = findNext t n f m' := by
  have h1 := findNext_spec t m hf
  have h2 := findNext_spec t m' hf
  generalize findNext t n f m = r at h1 ⊢
  generalize findNext t n f m' = r' at h2 ⊢
  match r, r', h1, h2 with
  | none, none, _, _ => rfl
  | none, some j, hnone, ⟨hfj, hjn, hj, _⟩ => exact absurd ((h j hjn).trans hj) (hnone j hfj hjn)
  | some i, none, ⟨hfi, hin, hi, _⟩, hnone => exact absurd ((h i hin).symm.trans hi) (hnone i hfi hin)
  | some i, some j, ⟨hfi, hin, hi, hleast_i⟩, ⟨hfj, hjn, hj, hleast_j⟩ =>
    have hij : ¬ i < j := fun hlt => hleast_j i hfi hlt ((h i hin).symm.trans hi)
    have hji : ¬ j < i := fun hlt => hleast_i j hfj hlt ((h j hjn).trans hj)
    rw [show i = j by omega]

/-- The contract of `findPrev` (R241) determines its result from the vector bits. -/
theorem findPrev_congr {n : Nat} {m m' : Memory} (h : bitsAgree n m m') (t : Bool) {f : Nat} (hf : f < n) :
    findPrev t f m = findPrev t f m' := by
  have h1 := findPrev_spec t m (f := f)
  have h2 := findPrev_spec t m' (f := f)
  generalize findPrev t f m = r at h1 ⊢
  generalize findPrev t f m' = r' at h2 ⊢
  match r, r', h1, h2 with
  | none, none, _, _ => rfl
  | none, some j, hnone, ⟨hjf, hj, _⟩ => exact absurd ((h j (by omega)).trans hj) (hnone j hjf)
  | some i, none, ⟨hif, hi, _⟩, hnone => exact absurd ((h i (by omega)).symm.trans hi) (hnone i hif)
  | some i, some j, ⟨hif, hi, hgreatest_i⟩, ⟨hjf, hj, hgreatest_j⟩ =>
    have hij : ¬ i < j := fun hlt => hgreatest_i j hjf hlt ((h j (by omega)).trans hj)
    have hji : ¬ j < i := fun hlt => hgreatest_j i hif hlt ((h i (by omega)).symm.trans hi)
    rw [show i = j by omega]

/-- A DATA read shows the vector bits of its byte; the pad positions it takes from the draw (20_memory.md R80). -/
theorem mergePad_readByte_congr {n k : Nat} {m m' : Memory} (h : bitsAgree n m m') (hk : k < nbytes n) (d : Byte) :
    mergePad (padMask n k) (m.readByte k) d = mergePad (padMask n k) (m'.readByte k) d := by
  refine BitVec.eq_of_getLsbD_eq fun p hp => ?_
  have hd : (8 * k + (7 - p)) / 8 = k := by omega
  have hm : 7 - (8 * k + (7 - p)) % 8 = p := by omega
  have hpad := getLsbD_padMask (n := n) (j := 8 * k + (7 - p)) (hd.symm ▸ hk)
  have hbit := h (8 * k + (7 - p))
  simp only [Memory.bit, hd, hm] at hpad hbit
  rw [getLsbD_mergePad _ _ _ hp, getLsbD_mergePad _ _ _ hp, hpad]
  by_cases hn : n ≤ 8 * k + (7 - p)
  · simp [hn]
  · simp [hn, hbit (Nat.lt_of_not_le hn)]

theorem bitsAgree.writeBit {n : Nat} {m m' : Memory} (h : bitsAgree n m m') (i : Nat) {b b' : Bool} (hb : b = b') :
    bitsAgree n (m.writeBit i b) (m'.writeBit i b') := fun j hj => by
  rw [Memory.bit_writeBit, Memory.bit_writeBit, h j hj, hb]

theorem bitsAgree.regionOp {n : Nat} {m m' : Memory} (h : bitsAgree n m m') (op : RegionKind) {lo hi : Nat}
    (hle : lo ≤ hi) : bitsAgree n (regionOp op lo hi m) (regionOp op lo hi m') := fun j hj => by
  rw [bit_regionOp op hle, bit_regionOp op hle, h j hj]

theorem bitsAgree_zeroFill (c : Nat) (m m' : Memory) : bitsAgree c (zeroFill c m) (zeroFill c m') := fun j hj => by
  rw [bit_zeroFill, bit_zeroFill, if_pos (byteIndex_lt_nbytes hj), if_pos (byteIndex_lt_nbytes hj)]

/-- The bits RESIZE adds are cleared; those it keeps were vector bits (R156). -/
theorem bitsAgree.clearGrowth {n : Nat} {m m' : Memory} (h : bitsAgree n m m') (c : Nat) :
    bitsAgree c (clearGrowth n c m) (clearGrowth n c m') := fun j hj => by
  rw [bit_clearGrowth, bit_clearGrowth]
  by_cases hn : n ≤ j
  · rw [if_pos ⟨hn, hj⟩, if_pos ⟨hn, hj⟩]
  · rw [if_neg fun hc => hn hc.1, if_neg fun hc => hn hc.1, h j (Nat.lt_of_not_le hn)]

theorem bitsAgree.dataStore {n k : Nat} {m m' : Memory} (h : bitsAgree n m m') (hk : k < nbytes n) (v : Byte) :
    bitsAgree n (m.writeByte k (mergePad (padMask n k) v (m.readByte k)))
      (m'.writeByte k (mergePad (padMask n k) v (m'.readByte k))) := fun j hj => by
  rw [bit_dataStore m hk, bit_dataStore m' hk, h j hj]

/-! ### States that differ in the storage only -/

theorem sameVector_withStorage {s : State} {m m' : Memory} (h : bitsAgree s.n m m') :
    sameVector (s.withStorage m) (s.withStorage m') := ⟨rfl, h⟩

/-- Two states the host cannot tell apart are one state with two storages. -/
theorem sameVector.exists_storage {s t : State} (h : sameVector s t) :
    ∃ m, bitsAgree s.n s.storage m ∧ t = s.withStorage m := ⟨t.storage, h.2, h.1⟩

theorem checksAlike_withStorage (i : Instr) (s : State) (m : Memory) : checksAlike i s (s.withStorage m) :=
  ⟨fun _ => rfl, fun _ => rfl, rfl, rfl, rfl, rfl⟩

section
variable {s : State} {m : Memory} (h : bitsAgree s.n s.storage m)
include h

theorem sameVector_withResult {v v' : Word} (hv : v = v') :
    sameVector (s.withResult v) ((s.withStorage m).withResult v') := by
  subst hv
  exact ⟨rfl, h⟩

theorem sameVector_withSearch {r r' : Option Nat} (hr : r = r') :
    sameVector (s.withSearch r) ((s.withStorage m).withSearch r') := by
  subst hr
  cases r <;> exact ⟨rfl, h⟩

/-- The results of a body come from vector bits, and the bits it stores too. -/
theorem sameVector_bodyState {i : Instr} (hb : bodyRuns i s) :
    sameVector (bodyState i s) (bodyState i (s.withStorage m)) := by
  cases i with
  | nop => exact ⟨rfl, h⟩
  | create => exact ⟨rfl, bitsAgree_zeroFill _ _ _⟩
  | resize => exact ⟨rfl, h.clearGrowth _⟩
  | destroy => exact ⟨rfl, fun i hi => absurd hi (Nat.not_lt_zero i)⟩
  | get => exact sameVector_withResult h (congrArg zextBit (h _ hb.2.1))
  | set | clear => exact sameVector_withStorage (h.writeBit _ rfl)
  | toggle => exact sameVector_withStorage (h.writeBit _ (congrArg (!·) (h _ hb.2.1)))
  | setRegion | clearRegion | toggleRegion => exact sameVector_withStorage (h.regionOp _ min_le_max)
  | setAll | clearAll | toggleAll => exact sameVector_withStorage (h.regionOp _ (Nat.zero_le _))
  | countSet => exact sameVector_withResult h (congrArg (BitVec.ofNat 32) (countSet_congr h))
  | countClear => exact sameVector_withResult h (congrArg (BitVec.ofNat 32 <| s.n - ·) (countSet_congr h))
  | findNextClear | findNextSet => exact sameVector_withSearch h (findNext_congr h _ hb.2.1)
  | findPrevClear | findPrevSet => exact sameVector_withSearch h (findPrev_congr h _ hb.2.1)
  | firstClear | firstSet => exact sameVector_withSearch h (findNext_congr h _ (Nat.pos_of_ne_zero hb.2.1))
  | lastClear | lastSet => exact sameVector_withSearch h (findPrev_congr h _ (Nat.sub_one_lt hb.2.1))

end

theorem sameVector.succeeded {s t : State} (h : sameVector s t) : sameVector s.succeeded t.succeeded := by
  obtain ⟨m, hm, rfl⟩ := h.exists_storage
  exact ⟨rfl, hm⟩

/-! ### Each move keeps the agreement -/

section
variable {s : State} {m : Memory} (h : bitsAgree s.n s.storage m)
include h

theorem exec_sameResult (i : Instr) : sameResult (exec i s) (exec i (s.withStorage m)) :=
  (checksAlike_withStorage i s m).exec_rel (fun _ _ => ⟨rfl, h⟩) (fun _ => ⟨rfl, h⟩)
    fun hb => (sameVector_bodyState h hb).succeeded

theorem engineStep_sameResult : sameResult (engineStep s) (engineStep (s.withStorage m)) := by
  cases hd : decode s.cmd with
  | ok i =>
    rw [engineStep_ok hd, engineStep_ok (s := s.withStorage m) hd]
    exact exec_sameResult h i
  | error e =>
    rw [engineStep_error hd, engineStep_error (s := s.withStorage m) hd]
    exact raiseFatal_rel _ _ _ rfl ⟨rfl, h⟩

theorem dataRead_sameResult : sameResult (dataRead s) (dataRead (s.withStorage m)) := by
  cases hf : s.status.fault with
  | true =>
    rw [dataRead_halted hf, dataRead_halted (s := s.withStorage m) hf]
    exact relResult_next ⟨rfl, h⟩
  | false =>
    cases hv : s.status.valid with
    | false =>
      rw [dataRead_noInstance hf hv, dataRead_noInstance (s := s.withStorage m) hf hv]
      exact raiseFatal_rel _ _ _ rfl ⟨rfl, h⟩
    | true =>
      by_cases hk : s.daddr.toNat < nbytes s.n
      · rw [dataRead_inRange hf hv hk, dataRead_inRange (s := s.withStorage m) hf hv hk,
          mergePad_readByte_congr h hk]
        exact checkStorage_rel rfl (relResult_next ⟨rfl, h⟩)
      · have hk := Nat.le_of_not_lt hk
        rw [dataRead_outOfRange hf hv hk, dataRead_outOfRange (s := s.withStorage m) hf hv hk]
        exact raiseFatal_rel _ _ _ rfl ⟨rfl, h⟩

theorem dataWrite_sameResult (hf : s.status.fault = false) (w : Word) :
    sameResult (dataWrite w s) (dataWrite w (s.withStorage m)) := by
  cases hv : s.status.valid with
  | false =>
    rw [dataWrite_noInstance hf hv, dataWrite_noInstance (s := s.withStorage m) hf hv]
    exact raiseFatal_rel _ _ _ rfl ⟨rfl, h⟩
  | true =>
    by_cases hk : s.daddr.toNat < nbytes s.n
    · rw [dataWrite_inRange hf hv hk, dataWrite_inRange (s := s.withStorage m) hf hv hk]
      exact checkStorage_rel rfl (relResult_next ⟨rfl, h.dataStore hk _⟩)
    · have hk := Nat.le_of_not_lt hk
      rw [dataWrite_outOfRange hf hv hk, dataWrite_outOfRange (s := s.withStorage m) hf hv hk]
      exact raiseFatal_rel _ _ _ rfl ⟨rfl, h⟩

/-- No register but DATA shows the storage. -/
theorem portRead_sameResult (off : PortOffset) : sameResult (portRead off s) (portRead off (s.withStorage m)) := by
  cases hr : Reg.ofOffset off with
  | none =>
    rw [portRead_unmapped hr, portRead_unmapped hr]
    exact ⟨rfl, h⟩
  | some r =>
    by_cases hd : r = .data
    · rw [portRead_data (hd ▸ hr), portRead_data (hd ▸ hr)]
      exact dataRead_sameResult h
    · rw [portRead_reg hr hd, portRead_reg hr hd]
      cases r <;> exact ⟨rfl, h⟩

theorem regWrite_sameResult (hf : s.status.fault = false) (r : Reg) (v : Word) :
    sameResult (regWrite r v s) (regWrite r v (s.withStorage m)) := by
  cases r with
  | data => exact dataWrite_sameResult h hf v
  | _ => exact ⟨rfl, h⟩

theorem portWrite_sameResult (off : PortOffset) (v : Word) :
    sameResult (portWrite off v s) (portWrite off v (s.withStorage m)) := by
  cases hf : s.status.fault with
  | true =>
    rw [portWrite_halted hf, portWrite_halted (s := s.withStorage m) hf]
    exact ⟨rfl, h⟩
  | false =>
    cases hr : Reg.ofOffset off with
    | none =>
      rw [portWrite_unmapped hr, portWrite_unmapped hr]
      exact ⟨rfl, h⟩
    | some r =>
      rw [portWrite_reg hf hr, portWrite_reg (s := s.withStorage m) hf hr]
      exact regWrite_sameResult h hf r v

theorem takeInput_sameResult (x : Input) (rest : List Input) :
    sameResult (takeInput x rest s) (takeInput x rest (s.withStorage m)) := by
  have h' : bitsAgree (s.taking rest).n (s.taking rest).storage m := h
  cases x with
  | read w off =>
    cases hl : accessLegal w off with
    | true =>
      rw [takeInput_read hl, takeInput_read hl]
      exact portRead_sameResult h' off
    | false =>
      rw [takeInput_read_illegal hl, takeInput_read_illegal hl]
      exact relResult_refused _
  | write w off v =>
    cases hl : accessLegal w off with
    | true =>
      rw [takeInput_write hl, takeInput_write hl]
      exact portWrite_sameResult h' off v
    | false =>
      rw [takeInput_write_illegal hl, takeInput_write_illegal hl]
      exact relResult_refused _
  | poll => exact ⟨rfl, h⟩
  | reset => exact ⟨rfl, fun _ _ => rfl⟩

/-- The same agent moves in both states: nothing but the storage differs. -/
theorem step_sameResult : sameResult (step s) (step (s.withStorage m)) := by
  cases hm : nextMove s with
  | engine =>
    rw [step_engine hm, step_engine (s := s.withStorage m) hm]
    exact engineStep_sameResult h
  | input x rest =>
    rw [step_input hm, step_input (s := s.withStorage m) hm]
    exact takeInput_sameResult h x rest
  | idle =>
    rw [step_idle hm, step_idle (s := s.withStorage m) hm]
    exact ⟨rfl, h⟩

end

/-- Settles O43: whoever moves, the results come from vector bits and the registers alone, and so do the vector bits of
the storage after the move. -/
theorem staleBytesAreNeverObserved : Obligations.StaleBytesAreNeverObserved := by
  intro s t hst
  obtain ⟨m, hm, rfl⟩ := hst.exists_storage
  exact step_sameResult hm

end Sys2Proof.Machine
end

section
/-! Proofs for 10_state.md, the register map: what reset leaves, the fields of STATUS, and the port accesses of each
register (R37 to R49, 30_encoding.md R84). -/

namespace Sys2Proof.Machine

/-! ### STATUS -/

/-- The STATUS word as the concatenation it is, at the sum of the fields' widths. -/
theorem Status.getLsbD_word (st : Status) (p : Nat) : st.word.getLsbD p =
    BitVec.getLsbD (0#8 ++ st.errop ++ 0#4 ++ st.ecode.bits ++ 0#3 ++ flagBit st.fault ++ flagBit st.err ++
      flagBit st.found ++ flagBit st.valid ++ flagBit st.busy) p := rfl

theorem Status.extractLsb'_word (st : Status) (start len : Nat) : st.word.extractLsb' start len =
    BitVec.extractLsb' start len (0#8 ++ st.errop ++ 0#4 ++ st.ecode.bits ++ 0#3 ++ flagBit st.fault ++
      flagBit st.err ++ flagBit st.found ++ flagBit st.valid ++ flagBit st.busy) := rfl


/-- The flags of STATUS (R40). The width of the word stays a sum, so that the lemmas about `++` apply. -/
theorem Status.word_flags (st : Status) :
    st.word.getLsbD 0 = st.busy ∧ st.word.getLsbD 1 = st.valid ∧ st.word.getLsbD 2 = st.found ∧
      st.word.getLsbD 3 = st.err ∧ st.word.getLsbD 4 = st.fault := by
  simp [Status.getLsbD_word, flagBit, BitVec.getLsbD_append, -BitVec.getLsbD_eq_getElem, -Nat.reduceAdd]

/-- ECODE, ERROP and the reserved zeros of STATUS (R40, R47). -/
theorem Status.word_fields (st : Status) :
    st.word.extractLsb' 5 3 = 0#3 ∧ st.word.extractLsb' 8 4 = st.ecode.bits ∧ st.word.extractLsb' 12 4 = 0#4 ∧
      st.word.extractLsb' 16 8 = st.errop ∧ st.word.extractLsb' 24 8 = 0#8 := by
  simp (disch := decide) [Status.extractLsb'_word, BitVec.extractLsb'_append_eq_of_le,
    BitVec.extractLsb'_append_eq_of_add_le, -Nat.reduceAdd]

/-- Settles O10: the word is a concatenation of the fields, so each one is cut out of it. -/
theorem statusWordLayout : Obligations.StatusWordLayout := by
  refine ⟨fun st => ?_, rfl, rfl, rfl, rfl, rfl⟩
  obtain ⟨hbusy, hvalid, hfound, herr, hfault⟩ := st.word_flags
  exact ⟨hbusy, hvalid, hfound, herr, hfault, st.word_fields⟩

/-! ### Reset -/

/-- Every field of STATUS is 0 after reset, so the word is (R49). -/
theorem Status.word_reset : Status.reset.word = 0#32 := by decide

/-- Settles O9. -/
theorem resetLeavesSpecifiedValues : Obligations.ResetLeavesSpecifiedValues := by
  refine ⟨fun c k => ?_, Config.referenceMaxBits, .checked, rfl⟩
  exact ⟨rfl, rfl, rfl, rfl, rfl, rfl, rfl, rfl, Status.word_reset, rfl, rfl, rfl, rfl, rfl, rfl, rfl, rfl, rfl⟩

/-! ### Accesses to a register of an idle block -/

/-- An idle block's next access acts on the state with the input taken off, and nothing else. -/
theorem State.taking_of_idle {s : State} (hb : s.status.busy = false) (rest : List Input) :
    s.taking rest = { s with inputs := rest } := by
  rw [State.taking, State.waited_of_idle hb]

/-- A read of a register but DATA returns its value (R37). -/
theorem step_readReg {s : State} {rest : List Input} {r : Reg} (hb : s.status.busy = false) (hr : r ≠ .data)
    (hi : s.inputs = .read 4 r.offset :: rest) :
    step s = .next { s with inputs := rest, reads := s.reads ++ [regValue r s] } := by
  rw [step_of_idle hb hi, takeInput_read (accessLegal_offset r), State.taking_of_idle hb,
    portRead_reg (Reg.ofOffset_offset r) hr]
  cases r <;> rfl

/-- A write to a register of a halted block is ignored (20_memory.md R92). -/
theorem step_writeReg_halted {s : State} {rest : List Input} {r : Reg} {v : Word} (hb : s.status.busy = false)
    (hf : s.status.fault = true) (hi : s.inputs = .write 4 r.offset v :: rest) :
    step s = .next { s with inputs := rest } := by
  rw [step_of_idle hb hi, takeInput_write (accessLegal_offset r), State.taking_of_idle hb]
  exact portWrite_halted (s := { s with inputs := rest }) hf _ v

theorem step_writeReg {s : State} {rest : List Input} {r : Reg} {v : Word} (hb : s.status.busy = false)
    (hf : s.status.fault = false) (hi : s.inputs = .write 4 r.offset v :: rest) :
    step s = regWrite r v { s with inputs := rest } := by
  rw [step_of_idle hb hi, takeInput_write (accessLegal_offset r), State.taking_of_idle hb]
  exact portWrite_reg (s := { s with inputs := rest }) hf (Reg.ofOffset_offset r) v

/-- The registers with a value of their own: all but DATA. -/
def valueRegs : List Reg :=
  [.cmd, .arg0, .arg1, .status, .result, .bitcount, .capacity, .daddr, .errinfo, .id]

/-- The read-only registers (R47). -/
def readOnlyRegs : List Reg := [.status, .result, .bitcount, .capacity, .errinfo, .id]

theorem ne_data_of_mem_valueRegs : ∀ r ∈ valueRegs, r ≠ .data := by decide

theorem regWrite_readOnly {r : Reg} (hr : r ∈ readOnlyRegs) (v : Word) (s : State) : regWrite r v s = .next s := by
  simp only [readOnlyRegs, List.mem_cons, List.not_mem_nil, or_false] at hr
  obtain rfl | rfl | rfl | rfl | rfl | rfl := hr <;> rfl

/-- Settles O44. -/
theorem portReadsReturnRegisters : Obligations.PortReadsReturnRegisters := by
  intro s rest hb
  exact List.forall_mem_map (f := fun r => (Reg.offset r, regValue r s)) (l := valueRegs).mpr
    fun r hr hi => step_readReg hb (ne_data_of_mem_valueRegs r hr) hi

/-- Settles O46: a halted block ignores the write, any other finds no register to store it in. -/
theorem readOnlyRegistersIgnoreWrites : Obligations.ReadOnlyRegistersIgnoreWrites := by
  intro s rest v hb
  refine List.forall_mem_map (f := Reg.offset) (l := readOnlyRegs).mpr fun r hr hi => ?_
  cases hf : s.status.fault with
  | true => exact step_writeReg_halted hb hf hi
  | false => rw [step_writeReg hb hf hi, regWrite_readOnly hr]

/-- Settles O47. -/
theorem writableRegistersTakeTheValue : Obligations.WritableRegistersTakeTheValue := by
  intro s rest v hb hf
  exact ⟨step_writeReg (r := .arg0) hb hf, step_writeReg (r := .arg1) hb hf, step_writeReg (r := .daddr) hb hf⟩

/-- Settles O48: the open values are the engine's delay and the number of commands issued (log 7). -/
theorem commandWriteIssues : Obligations.CommandWriteIssues := by
  intro s rest w hb hf hi
  exact ⟨Config.engineDelay s.issued, s.issued + 1, step_writeReg (r := .cmd) hb hf hi⟩

end Sys2Proof.Machine
end

section
/-! Proofs for 10_state.md, which commands write which register: a halt and a report write STATUS and ERRINFO only, and a
command's body writes only what `bodyState_frame` lists (R32, R33, R36, R38, R39, R41, R42, R44). -/

namespace Sys2Proof.Machine

/-- Settles O38. -/
theorem commandsLeaveHostRegisters : Obligations.CommandsLeaveHostRegisters := by
  intro i s t h
  obtain ⟨-, _, _, -, rfl⟩ | ⟨-, -, rfl⟩ | ⟨-, rfl⟩ := exec_next h
  · exact ⟨rfl, rfl, rfl, rfl, rfl, rfl, rfl, rfl, rfl, rfl, rfl⟩
  · exact ⟨rfl, rfl, rfl, rfl, rfl, rfl, rfl, rfl, rfl, rfl, rfl⟩
  · rw [bodyState_frame]
    exact ⟨rfl, rfl, rfl, rfl, rfl, rfl, rfl, rfl, rfl, rfl, rfl⟩

/-- A field that a halt and a report leave alone is written by the bodies only. -/
theorem exec_keeps_of_bodyState {α : Type} (field : State → α) {i : Instr} {s t : State} (h : exec i s = .next t)
    (halt : ∀ c o v, field (s.haltedBy c o v) = field s) (report : ∀ c o v, field (s.reportedBy c o v) = field s)
    (body : field (bodyState i s).succeeded = field s) : field t = field s := by
  obtain ⟨-, c, v, -, rfl⟩ | ⟨-, -, rfl⟩ | ⟨-, rfl⟩ := exec_next h
  · exact halt _ _ _
  · exact report _ _ _
  · exact body

/-- Only a search writes FOUND (R41). -/
theorem bodyState_found {i : Instr} (hi : i ∉ findCommands) (s : State) :
    (bodyState i s).status.found = s.status.found := by
  cases i with
  | findNextClear | findNextSet | findPrevClear | findPrevSet | firstClear | firstSet | lastClear | lastSet =>
    exact absurd (by decide) hi
  | _ => rfl

/-- Only GET, a count or a search writes RESULT (R42). -/
theorem bodyState_result {i : Instr} (hi : i ∉ resultCommands) (s : State) : (bodyState i s).result = s.result := by
  cases i with
  | get | countSet | countClear | findNextClear | findNextSet | findPrevClear | findPrevSet | firstClear | firstSet
  | lastClear | lastSet => exact absurd (by decide) hi
  | _ => rfl

/-- Settles O39. -/
theorem foundAndResultWriters : Obligations.FoundAndResultWriters := by
  intro i s t h
  constructor <;> intro hi
  · exact exec_keeps_of_bodyState (·.status.found) h (fun _ _ _ => rfl) (fun _ _ _ => rfl) (bodyState_found hi s)
  · exact exec_keeps_of_bodyState (·.result) h (fun _ _ _ => rfl) (fun _ _ _ => rfl) (bodyState_result hi s)

/-- CREATE sets VALID, DESTROY clears it, no other body writes it (R32). -/
theorem bodyState_valid (i : Instr) (s : State) :
    (i = .create ∧ (bodyState i s).status.valid = true) ∨ (i = .destroy ∧ (bodyState i s).status.valid = false) ∨
      (bodyState i s).status.valid = s.status.valid := by
  cases i with
  | create => exact .inl ⟨rfl, rfl⟩
  | destroy => exact .inr (.inl ⟨rfl, rfl⟩)
  | findNextClear | findNextSet | findPrevClear | findPrevSet | firstClear | firstSet | lastClear | lastSet =>
    exact .inr (.inr (State.withSearch_valid _ _))
  | _ => exact .inr (.inr rfl)

/-- Only CREATE, RESIZE and DESTROY write BITCOUNT (R33). -/
theorem bodyState_bitcount {i : Instr} (hi : i ∉ [Instr.create, .resize, .destroy]) (s : State) :
    (bodyState i s).bitcount = s.bitcount := by
  cases i with
  | create | resize | destroy => exact absurd (by decide) hi
  | findNextClear | findNextSet | findPrevClear | findPrevSet | firstClear | firstSet | lastClear | lastSet =>
    exact State.withSearch_bitcount _ _
  | _ => rfl

/-- Settles O40. -/
theorem vectorLengthWriters : Obligations.VectorLengthWriters := by
  intro i s t h
  refine ⟨fun hne => ?_, fun hi => exec_keeps_of_bodyState (·.bitcount) h (fun _ _ _ => rfl) (fun _ _ _ => rfl)
    (bodyState_bitcount hi s)⟩
  obtain ⟨-, _, _, -, rfl⟩ | ⟨-, -, rfl⟩ | ⟨-, rfl⟩ := exec_next h
  · exact absurd rfl hne
  · exact absurd rfl hne
  · obtain hv | hv | hv := bodyState_valid i s
    · exact .inl hv
    · exact .inr hv
    · exact absurd hv hne

end Sys2Proof.Machine
end

section
/-! Proofs for 20_memory.md, the stall: when the engine moves and what then waits, and the accesses the interface gives no
meaning (R71, R84 to R86, 60_exceptions.md R278). -/

namespace Sys2Proof.Machine

/-! ### The engine's turn -/

theorem step_of_engineTurn {s : State} (h : engineTurn s) : step s = engineStep s :=
  step_engine ((nextMove_engine_iff s).mpr h)

/-- A fetched word is pending with no delay left. -/
theorem engineTurn_fetchPending (w : Word) (s : State) : engineTurn (fetchPending w s) := ⟨rfl, .inr (.inl rfl)⟩

theorem decodeTableWord_some {nbits w : Nat} {i : Instr} (h : decodeTableWord nbits w = some i) :
    decode (tableWord nbits w) = .ok i := by
  unfold decodeTableWord at h
  split at h
  · rename_i hd
    cases h
    exact hd
  · cases h

/-- Settles O4. -/
theorem stepRunsPendingCommand : Obligations.StepRunsPendingCommand := by
  refine ⟨fun s i ht hd => ?_, fun s nbits w i hw => ?_⟩
  · exact (step_of_engineTurn ht).trans (engineStep_ok hd)
  · exact (step_of_engineTurn (engineTurn_fetchPending _ s)).trans (engineStep_ok (decodeTableWord_some hw))

/-- The engine's step takes no input, returns no value to the host and ends BUSY (R275, R280, R281). -/
theorem engineStep_outside {s t : State} (h : engineStep s = .next t) :
    t.inputs = s.inputs ∧ t.reads = s.reads ∧ t.status.busy = false := by
  obtain ⟨-, _, _, _, -, rfl⟩ | ⟨_, _, rfl⟩ | ⟨i, -, -, rfl⟩ := engineStep_next h
  · exact ⟨rfl, rfl, rfl⟩
  · exact ⟨rfl, rfl, rfl⟩
  · rw [bodyState_frame]
    exact ⟨rfl, rfl, rfl⟩

/-! ### Held and malformed accesses -/

theorem accessLegal_iff {w : Nat} {off : PortOffset} : accessLegal w off = true ↔ w = 4 ∧ off.toNat % 4 = 0 := by
  simp [accessLegal]

theorem held_read_eq_false_iff {w : Nat} {off : PortOffset} :
    (Input.read w off).held = false ↔ w = 4 ∧ off = Reg.status.offset := by
  constructor
  · intro h
    have hl : accessLegal w off = true := by
      simp only [Input.held, Bool.not_eq_false', Bool.and_eq_true] at h
      exact h.1
    exact ⟨(accessLegal_iff.mp hl).1, read_of_not_held h⟩
  · rintro ⟨rfl, rfl⟩
    rfl

/-- Settles O52: a held input at the head of the list is one of the cases of the engine's turn. -/
theorem heldAccessWaitsForTheEngine : Obligations.HeldAccessWaitsForTheEngine := by
  refine ⟨fun _ _ => held_read_eq_false_iff, fun _ _ _ => rfl, fun s x rest hb hi hx => ?_⟩
  have he : step s = engineStep s := step_of_engineTurn ⟨hb, .inr (.inr ⟨x, rest, hi, hx⟩)⟩
  exact ⟨he, fun t ht => engineStep_outside (he ▸ ht)⟩

/-- Settles O51. -/
theorem malformedAccessIsRefused : Obligations.MalformedAccessIsRefused := by
  intro s rest width off hb hw
  have hl : accessLegal width off = false := by
    rw [Bool.eq_false_iff, ne_eq, accessLegal_iff]
    omega
  refine ⟨fun hi => ?_, fun v hi => ?_⟩
  · rw [step_of_idle hb hi, takeInput_read_illegal hl]
  · rw [step_of_idle hb hi, takeInput_write_illegal hl]

end Sys2Proof.Machine
end

section
/-! Proofs for 20_memory.md, accesses of an idle block: unmapped offsets (R73), the halted block (R92) and the DATA window
(R80, R81). -/

namespace Sys2Proof.Machine

/-! ### Unmapped offsets -/

/-- The state with an input taken off. -/
def State.withInputs (rest : List Input) (s : State) : State := { s with inputs := rest }

/-- An aligned read of an idle block is the port's, with the input taken off. -/
theorem step_read {s : State} {rest : List Input} {off : PortOffset} (hb : s.status.busy = false)
    (ha : off.toNat % 4 = 0) (hi : s.inputs = .read 4 off :: rest) :
    step s = portRead off (s.withInputs rest) := by
  rw [step_of_idle hb hi, takeInput_read (accessLegal_iff.mpr ⟨rfl, ha⟩), State.taking_of_idle hb, State.withInputs]

theorem step_write {s : State} {rest : List Input} {off : PortOffset} {v : Word} (hb : s.status.busy = false)
    (ha : off.toNat % 4 = 0) (hi : s.inputs = .write 4 off v :: rest) :
    step s = portWrite off v (s.withInputs rest) := by
  rw [step_of_idle hb hi, takeInput_write (accessLegal_iff.mpr ⟨rfl, ha⟩), State.taking_of_idle hb, State.withInputs]

/-- The last mapped register is ID, at 0x28 (R37). -/
theorem Reg.ofOffset_unmapped {off : PortOffset} (h : 0x2C ≤ off.toNat) : Reg.ofOffset off = none := by
  unfold Reg.ofOffset
  split
  case h_12 => rfl
  all_goals omega

/-- Settles O45. -/
theorem unmappedOffsets : Obligations.UnmappedOffsets := by
  intro s rest off hb hoff ha
  have hr : Reg.ofOffset off = none := Reg.ofOffset_unmapped hoff
  refine ⟨?_, fun _ => rfl, fun hi => ?_, fun v hi => ?_⟩
  · rw [← Bool.not_eq_false, held_read_eq_false_iff]
    rintro ⟨-, rfl⟩
    exact absurd hoff (by decide)
  · exact (step_read hb ha hi).trans (portRead_unmapped hr _)
  · exact (step_write hb ha hi).trans (portWrite_unmapped hr v _)

/-! ### The halted block -/

/-- A DATA read of an idle block. -/
theorem step_readData {s : State} {rest : List Input} (hb : s.status.busy = false)
    (hi : s.inputs = .read 4 0x20#8 :: rest) : step s = dataRead (s.withInputs rest) :=
  step_read hb (by decide) hi

theorem step_readData_halted {s : State} {rest : List Input} (hf : s.status.fault = true)
    (hb : s.status.busy = false) (hi : s.inputs = .read 4 0x20#8 :: rest) :
    ∃ (b : Byte) (draws : Nat), step s = .next { s with
      inputs := rest, reads := s.reads ++ [b.setWidth 32], draws := draws } :=
  ⟨_, _, (step_readData hb hi).trans (dataRead_halted (s := s.withInputs rest) hf)⟩

/-- Settles O49. -/
theorem haltedBlockIgnoresTheHost : Obligations.HaltedBlockIgnoresTheHost := by
  intro s rest hf hb
  refine ⟨fun off v ha hi => ?_, step_readData_halted hf hb⟩
  exact (step_write hb ha hi).trans (portWrite_halted (s := s.withInputs rest) hf off v)

/-- `t` is `s` but for the inputs to come, the values returned and the count of draws (log 8, log 6). -/
def sameBlock (s t : State) : Prop := t = { s with inputs := t.inputs, reads := t.reads, draws := t.draws }

theorem portRead_halted {off : PortOffset} {s t : State} (hf : s.status.fault = true)
    (h : portRead off s = .next t) : sameBlock s t := by
  obtain hd | ⟨_, rfl⟩ := portRead_next h
  · cases (dataRead_halted hf).symm.trans hd
    rfl
  · rfl

/-- Settles O50: of the inputs a halted block takes, a write is ignored, a read or a POLL returns a value, and reset is
excluded. -/
theorem onlyResetLeavesTheHalt : Obligations.OnlyResetLeavesTheHalt := by
  intro s t hf hb hr h
  obtain ⟨hb', -⟩ | ⟨x, rest, hi, -, e⟩ | ⟨-, -, e⟩ := step_cases s
  · exact nomatch hb.symm.trans hb'
  · rw [e] at h
    have hs : s.taking rest = s.withInputs rest := State.taking_of_idle hb rest
    obtain ⟨_, _, rfl, hp⟩ | ⟨_, off, v, rfl, hp⟩ | ⟨rfl, rfl⟩ | ⟨rfl, -⟩ := takeInput_next h
    · rw [hs] at hp
      exact portRead_halted (s := s.withInputs rest) hf hp
    · rw [hs, portWrite_halted (s := s.withInputs rest) hf] at hp
      cases hp
      rfl
    · rw [State.waited_of_idle hb]
      rfl
    · exact absurd hi (hr rest)
  · cases e.symm.trans h
    rfl

/-! ### The DATA window -/

/-- The vector bits of the byte a DATA read shows (R80); its pad positions come from `d`. -/
theorem getLsbD_dataByte (m : Memory) {n k j : Nat} (hk : k < nbytes n) (hj : j < 8) (hn : 8 * k + j < n) (d : Byte) :
    (mergePad (padMask n k) (m.readByte k) d).getLsbD (7 - j) = m.bit (8 * k + j) := by
  have hdiv : (8 * k + j) / 8 = k := by omega
  have hmod : (8 * k + j) % 8 = j := by omega
  have hpad := getLsbD_padMask (n := n) (j := 8 * k + j) (hdiv.symm ▸ hk)
  rw [hdiv, hmod] at hpad
  rw [getLsbD_mergePad _ _ _ (by omega), hpad, Memory.bit, hdiv, hmod]
  simp [hn]

/-- The bit of the written value that goes to vector bit `j` (R81): the byte stored is bits 7:0. -/
theorem getLsbD_setWidth_byte (w : Word) (j : Nat) :
    (w.setWidth 8).getLsbD (7 - j % 8) = w.getLsbD (7 - j % 8) := by
  rw [BitVec.getLsbD_setWidth, decide_eq_true (by omega), Bool.true_and]

/-- A DATA access that fails in an idle block of the checked build halts it (R80, R81, R275). -/
theorem raiseFatal_of_idle {s : State} (hb : s.status.busy = false) (hc : s.checks = .checked) {c : ECode} {o : Byte}
    {v : Word} : raiseFatal c o v s = .next (s.haltedBy c o v) := by
  rw [raiseFatal_checked hc, State.fatalEntry_of_idle hb]

/-- Settles O54: the four cases of a DATA read, each on the state with the input taken off. -/
theorem dataReadReturnsVectorBits : Obligations.DataReadReturnsVectorBits := by
  intro s rest hb hi
  have hs := step_readData hb hi
  refine ⟨fun hf => step_readData_halted hf hb hi, fun hf hv hc => ?_, fun hf hv hk hc => ?_, fun hf hv hm hk => ?_⟩
  · exact ⟨_, _, hs.trans ((dataRead_noInstance (s := s.withInputs rest) hf hv).trans
      (raiseFatal_of_idle (s := (s.withInputs rest).drawn.returning _) hb hc))⟩
  · exact ⟨_, _, hs.trans ((dataRead_outOfRange (s := s.withInputs rest) hf hv hk).trans
      (raiseFatal_of_idle (s := (s.withInputs rest).drawn.returning _) hb hc))⟩
  · exact ⟨_, _, hs.trans ((dataRead_inRange (s := s.withInputs rest) hf hv hk).trans
      (checkStorage_pass (storageFits_of_le hm) _)), fun j hj hn => getLsbD_dataByte s.storage hk hj hn _⟩

/-- Settles O55: the four cases of a DATA write, each on the state with the input taken off. -/
theorem dataWriteStoresVectorBits : Obligations.DataWriteStoresVectorBits := by
  intro s rest w hb hi
  have hs (hf : s.status.fault = false) : step s = dataWrite w (s.withInputs rest) :=
    step_writeReg (r := .data) hb hf hi
  refine ⟨fun hf => step_writeReg_halted (r := .data) hb hf hi, fun hf hv hc => ?_, fun hf hv hk hc => ?_,
    fun hf hv hm hk => ?_⟩
  · exact (hs hf).trans ((dataWrite_noInstance (s := s.withInputs rest) hf hv w).trans
      (raiseFatal_of_idle (s := s.withInputs rest) hb hc))
  · exact (hs hf).trans ((dataWrite_outOfRange (s := s.withInputs rest) hf hv hk w).trans
      (raiseFatal_of_idle (s := s.withInputs rest) hb hc))
  · refine ⟨_, (hs hf).trans ((dataWrite_inRange (s := s.withInputs rest) hf hv hk w).trans
      (checkStorage_pass (storageFits_of_le hm) _)), rfl, fun j => ?_, fun k => Memory.readByte_writeByte_other _ _⟩
    rw [← getLsbD_setWidth_byte]
    exact bit_dataStore s.storage hk _ j

end Sys2Proof.Machine
end

section
/-! Proofs for 20_memory.md, the bytes a command stores to (R77, R78): a halt and a report leave the storage as it is, and
each body writes inside the bytes that `storesByte` names. -/

namespace Sys2Proof.Machine

/-- A body stores to its command's bytes only; for the whole-vector commands this needs the `n >= 1` their check gives
(R200). -/
theorem bodyState_readByte {i : Instr} {s : State} (hb : bodyRuns i s) {k : Nat} (hk : ¬ storesByte i s k) :
    (bodyState i s).storage.readByte k = s.storage.readByte k := by
  cases i with
  | nop | destroy | get | countSet | countClear => rfl
  | create => exact (readByte_zeroFill _ _ _).trans (if_neg hk)
  | resize =>
    simp only [storesByte] at hk
    exact readByte_clearGrowth _ _ _ (by omega)
  | set | clear | toggle => exact Memory.readByte_writeBit_other _ _ hk
  | setRegion | clearRegion | toggleRegion =>
    simp only [storesByte] at hk
    exact readByte_regionOp _ min_le_max _ (by omega)
  | setAll | clearAll | toggleAll =>
    obtain ⟨-, hn, -⟩ := hb
    simp only [storesByte, nbytes] at hk
    exact readByte_regionOp _ (Nat.zero_le _) _ (by omega)
  | findNextClear | findNextSet | findPrevClear | findPrevSet | firstClear | firstSet | lastClear | lastSet =>
    exact congrArg (·.readByte k) (State.withSearch_storage _ _)

/-- Settles O41. -/
theorem commandsStoreOnlyTheirBytes : Obligations.CommandsStoreOnlyTheirBytes := by
  intro i s t h k hk
  obtain ⟨-, _, _, -, rfl⟩ | ⟨-, -, rfl⟩ | ⟨hb, rfl⟩ := exec_next h
  · rfl
  · rfl
  · exact bodyState_readByte hb hk

end Sys2Proof.Machine
end

section
/-! Proofs for 30_encoding.md, the opcode map: the decoder and the encoder are inverse to each other, and the words the
decoder rejects are the reserved ones (R111, R118 to R120). -/

namespace Sys2Proof

/-! ### The opcode map in both directions -/

theorem decode_encode (i : Instr) : decode (encode i) = .ok i := by cases i <;> rfl

/-- The word of an accepted command has RESV = 0 and the CLASS and FUNC of its row (R111). -/
theorem fields_encode_of_accepted : ∀ p ∈ acceptedFields,
    fieldResv (encode p.2.2) = 0#24 ∧ (fieldClass (encode p.2.2)).toNat = p.1 ∧
      (fieldFunc (encode p.2.2)).toNat = p.2.1 := by decide

/-- A word that decodes has RESV = 0 and its CLASS and FUNC are in the map, so its three fields are those of the command's
word, and they are the whole word. -/
theorem eq_encode_of_decode {w : Word} {i : Instr} (h : decode w = .ok i) : w = encode i := by
  by_cases hr : fieldResv w = 0#24
  · rw [decode_of_resv hr] at h
    have hmem := decodeFields_ok _ (fieldClass w).isLt _ (fieldFunc w).isLt i h
    obtain ⟨hresv, hclass, hfunc⟩ := fields_encode_of_accepted _ hmem
    exact word_ext (hr.trans hresv.symm) (BitVec.eq_of_toNat_eq hclass.symm) (BitVec.eq_of_toNat_eq hfunc.symm)
  · exact nomatch (decode_of_resv_ne hr).symm.trans h

/-- Settles O2. -/
theorem decodeInvertsEncode : Obligations.DecodeInvertsEncode := by
  intro w i
  exact ⟨eq_encode_of_decode, fun h => h ▸ decode_encode i⟩

/-! ### The reserved FUNC values of each class -/

theorem decodeStorage_error_iff : ∀ f, (∃ e, decodeStorage f = .error e) ↔ 4 ≤ f
  | 0 | 1 | 2 | 3 | _ + 4 => by simp [decodeStorage]

theorem decodeBit_error_iff : ∀ f, (∃ e, decodeBit f = .error e) ↔ 4 ≤ f
  | 0 | 1 | 2 | 3 | _ + 4 => by simp [decodeBit]

theorem decodeRegion_error_iff : ∀ f, (∃ e, decodeRegion f = .error e) ↔ f = 0 ∨ 4 ≤ f
  | 0 | 1 | 2 | 3 | _ + 4 => by simp [decodeRegion]

theorem decodeWhole_error_iff : ∀ f, (∃ e, decodeWhole f = .error e) ↔ f = 0 ∨ 4 ≤ f
  | 0 | 1 | 2 | 3 | _ + 4 => by simp [decodeWhole]

theorem decodePopcount_error_iff : ∀ f, (∃ e, decodePopcount f = .error e) ↔ 2 ≤ f
  | 0 | 1 | _ + 2 => by simp [decodePopcount]

theorem decodeSearch_error_iff : ∀ f, (∃ e, decodeSearch f = .error e) ↔ 8 ≤ f
  | 0 | 1 | 2 | 3 | 4 | 5 | 6 | 7 | _ + 8 => by simp [decodeSearch]

/-- The illegal words with RESV = 0, by CLASS and FUNC (R120). -/
theorem decodeFields_error_iff (c f : Nat) : (∃ e, decodeFields c f = .error e) ↔
    (6 ≤ c ∨ (c = 0 ∧ 4 ≤ f) ∨ (c = 1 ∧ 4 ≤ f) ∨ ((c = 2 ∨ c = 3) ∧ (f = 0 ∨ 4 ≤ f)) ∨ (c = 4 ∧ 2 ≤ f) ∨
      (c = 5 ∧ 8 ≤ f)) := by
  match c with
  | 0 => simp [decodeFields, decodeStorage_error_iff]
  | 1 => simp [decodeFields, decodeBit_error_iff]
  | 2 => simp [decodeFields, decodeRegion_error_iff]
  | 3 => simp [decodeFields, decodeWhole_error_iff]
  | 4 => simp [decodeFields, decodePopcount_error_iff]
  | 5 => simp [decodeFields, decodeSearch_error_iff]
  | _ + 6 => simp [decodeFields]

/-- Settles O3. -/
theorem illegalWordsAreTheReservedOnes : Obligations.IllegalWordsAreTheReservedOnes := by
  intro w
  by_cases hr : fieldResv w = 0#24
  · rw [decode_of_resv hr]
    exact (decodeFields_error_iff _ _).trans (or_iff_right (not_not_intro hr)).symm
  · exact iff_of_true ⟨_, decode_of_resv_ne hr⟩ (.inl hr)

/-- Settles O1. -/
theorem decodesWrittenWords : Obligations.DecodesWrittenWords :=
  ⟨decode_encode .create, decode_encode .toggle, decode_encode .clearRegion, decode_encode .setAll,
    decode_encode .countClear, decode_encode .lastClear, decode_of_resv_ne (by decide), rfl, rfl⟩

end Sys2Proof
end

section
/-! Proofs for 30_encoding.md, the operands: a command has the same effect whatever an operand register it does not read
holds (R116). -/

namespace Sys2Proof.Machine

/-! ### Other values in the operand registers -/

/-- ARG0 and ARG1 take the values `a` and `b`. -/
def State.withArgs (a b : Word) (s : State) : State := { s with arg0 := a, arg1 := b }

theorem State.setArg0_eq_withArgs {t : State} {b : Word} (h : t.arg1 = b) (v : Word) :
    { t with arg0 := v } = t.withArgs v b := h ▸ rfl

theorem State.setArg1_eq_withArgs {t : State} {a : Word} (h : t.arg0 = a) (v : Word) :
    { t with arg1 := v } = t.withArgs a v := h ▸ rfl

theorem State.withSearch_withArgs (s : State) (r : Option Nat) (a b : Word) :
    (s.withArgs a b).withSearch r = (s.withSearch r).withArgs a b := by
  cases r <;> rfl

section
variable {i : Instr} {s : State} {a b : Word} (ha : readsArg0 i = true → a = s.arg0)
  (hb : readsArg1 i = true → b = s.arg1)
include ha hb

/-- The checks of a command look at the operands it reads only. -/
theorem checksAlike_withArgs : checksAlike i s (s.withArgs a b) :=
  ⟨fun h => (ha h).symm, fun h => (hb h).symm, rfl, rfl, rfl, rfl⟩

/-- A command's body uses the operands it reads only (R116). -/
theorem bodyState_withArgs : bodyState i (s.withArgs a b) = (bodyState i s).withArgs a b := by
  cases i with
  | nop | destroy | setAll | clearAll | toggleAll | countSet | countClear => rfl
  | create | resize | get | set | clear | toggle =>
    obtain rfl := ha rfl
    rfl
  | setRegion | clearRegion | toggleRegion =>
    obtain rfl := ha rfl
    obtain rfl := hb rfl
    rfl
  | findNextClear | findNextSet | findPrevClear | findPrevSet =>
    obtain rfl := ha rfl
    exact State.withSearch_withArgs _ _ _ _
  | firstClear | firstSet | lastClear | lastSet => exact State.withSearch_withArgs _ _ _ _

/-- With the operands it reads unchanged, a command answers the same state but for the operand registers. -/
theorem exec_withArgs {t : State} (h : exec i s = .next t) :
    exec i (s.withArgs a b) = .next (t.withArgs a b) := by
  have hrel : relResult (fun p q => q = p.withArgs a b) (exec i s) (exec i (s.withArgs a b)) := by
    refine (checksAlike_withArgs ha hb).exec_rel (fun _ _ => rfl) (fun hi => ?_) fun _ => ?_
    · obtain rfl : a = s.arg0 := by obtain rfl | rfl := hi <;> exact ha rfl
      rfl
    · exact congrArg State.succeeded (bodyState_withArgs ha hb)
  obtain ⟨_, hu, rfl⟩ := relResult_of_next hrel h
  exact hu

end

/-! ### The table of R116 -/

theorem readsArg0_eq_false : ∀ i ∈ [Instr.nop, .destroy, .setAll, .clearAll, .toggleAll, .countSet, .countClear,
    .firstClear, .firstSet, .lastClear, .lastSet], readsArg0 i = false := by decide

theorem readsArg1_eq_false {i : Instr} (hi : i ∉ [Instr.setRegion, .clearRegion, .toggleRegion]) :
    readsArg1 i = false := by
  cases i with
  | setRegion | clearRegion | toggleRegion => exact absurd (by decide) hi
  | _ => rfl

/-- Settles O42: the other operand register keeps its value, in `t` too, since no command writes one. -/
theorem unreadOperandsHaveNoEffect : Obligations.UnreadOperandsHaveNoEffect := by
  intro i s t h
  obtain ⟨-, harg0, harg1, -⟩ := commandsLeaveHostRegisters i s t h
  refine ⟨fun hi v => ?_, fun hi v => ?_⟩
  · have hread : readsArg0 i = true → v = s.arg0 := by simp [readsArg0_eq_false i hi]
    rw [State.setArg0_eq_withArgs harg1]
    exact exec_withArgs hread (fun _ => rfl) h
  · have hread : readsArg1 i = true → v = s.arg1 := by simp [readsArg1_eq_false hi]
    rw [State.setArg1_eq_withArgs harg0]
    exact exec_withArgs (fun _ => rfl) hread h

end Sys2Proof.Machine
end

section
/-! Proofs for 40_storage_core.md: NOP, CREATE, RESIZE and DESTROY, each by the check that stops it or by the state its body
leaves (R150, R152, R153, R156, R160, R272, R274, R280). -/

namespace Sys2Proof.Machine

/-- Every command but NOP and CREATE halts a checked block that holds no vector (60_exceptions.md R274, R278). -/
theorem exec_of_noInstance {i : Instr} {s : State} (hi : i ∉ [Instr.nop, .create]) (hv : s.status.valid = false)
    (hc : s.checks = .checked) : exec i s = .next (s.haltedBy .noInstance (opcode i) 0#32) := by
  have hfatal : exec i s = commandFatal i .noInstance 0#32 s := by
    cases i with
    | nop | create => exact absurd (by decide) hi
    | _ => exact checkInstance_fail hv _ _
  exact hfatal.trans (commandFatal_checked hc _ _ _)

/-- Settles O18: NOP checks nothing, and its body changes nothing. -/
theorem nopCommand : Obligations.NopCommand :=
  ⟨decode_encode .nop, fun _ => exec_of_bodyRuns (i := .nop) trivial⟩

/-- Settles O19: the vector bits are 0 because the byte of each is one of the bytes CREATE fills. -/
theorem createCommand : Obligations.CreateCommand := by
  intro s
  refine ⟨fun hcap => checkCapacity_fail hcap .create _, fun hcap =>
    ⟨_, exec_of_bodyRuns (i := .create) hcap, rfl, readByte_zeroFill _ _, fun i hi => ?_⟩⟩
  exact (bit_zeroFill _ _ _).trans (if_pos (byteIndex_lt_nbytes hi))

/-- Settles O20: the instance check comes before the capacity check, and the body clears the growth only. -/
theorem resizeCommand : Obligations.ResizeCommand := by
  intro s
  refine ⟨fun hv hc => exec_of_noInstance (by decide) hv hc, fun hv hcap => ?_, fun hv hcap =>
    ⟨_, exec_of_bodyRuns (i := .resize) ⟨hv, hcap⟩, rfl, bit_clearGrowth _ _ _⟩⟩
  exact (checkInstance_pass hv .resize _).trans (checkCapacity_fail hcap .resize _)

/-- Settles O21. -/
theorem destroyCommand : Obligations.DestroyCommand := by
  intro s
  exact ⟨fun hv hc => exec_of_noInstance (by decide) hv hc, fun hv => exec_of_bodyRuns (i := .destroy) hv⟩

end Sys2Proof.Machine
end

section
/-! Proofs for 41_bit_ops.md: GET, SET, CLEAR and TOGGLE. The three that write store a function of the addressed bit, and
doing so twice stores that function applied twice (R170 to R176, R272). -/

namespace Sys2Proof.Machine

/-! ### Writing one bit of a storage -/

theorem Memory.writeBit_writeBit {m : Memory} (h : m.wf) (i : Nat) (b c : Bool) :
    (m.writeBit i b).writeBit i c = m.writeBit i c := by
  refine Memory.ext_bits (Memory.wf_writeBit _ _ (Memory.wf_writeBit _ _ h)) (Memory.wf_writeBit _ _ h) fun j => ?_
  rw [Memory.bit_writeBit, Memory.bit_writeBit, Memory.bit_writeBit]
  exact ite_congr rfl (fun _ => rfl) fun hj => if_neg hj

theorem Memory.writeBit_bit_self {m : Memory} (h : m.wf) (i : Nat) : m.writeBit i (m.bit i) = m := by
  refine Memory.ext_bits (Memory.wf_writeBit _ _ h) h fun j => ?_
  rw [Memory.bit_writeBit]
  exact ite_eq_right_iff.mpr fun hj => hj ▸ rfl

/-! ### The addressed bit -/

/-- The bit that ARG0 addresses becomes `f` of it. -/
def State.mapBit (f : Bool → Bool) (s : State) : State :=
  s.withStorage (s.storage.writeBit s.arg0.toNat (f (s.bit s.arg0.toNat)))

theorem State.bit_mapBit (f : Bool → Bool) (s : State) (j : Nat) :
    (s.mapBit f).bit j = if j = s.arg0.toNat then f (s.bit j) else s.bit j :=
  (Memory.bit_writeBit _ _ _ _).trans (ite_congr rfl (fun hj => hj ▸ rfl) fun _ => rfl)

theorem State.mapBit_succeeded (f : Bool → Bool) (s : State) : s.succeeded.mapBit f = (s.mapBit f).succeeded := rfl

theorem State.succeeded_succeeded (s : State) : s.succeeded.succeeded = s.succeeded := rfl

theorem State.mapBit_mapBit {s : State} (h : s.storage.wf) (f g : Bool → Bool) :
    (s.mapBit f).mapBit g = s.mapBit (g ∘ f) := by
  have hbit : (s.mapBit f).bit s.arg0.toNat = f (s.bit s.arg0.toNat) := (State.bit_mapBit _ _ _).trans (if_pos rfl)
  show s.withStorage ((s.mapBit f).storage.writeBit s.arg0.toNat (g ((s.mapBit f).bit s.arg0.toNat))) = _
  rw [hbit]
  exact congrArg s.withStorage (Memory.writeBit_writeBit h _ _ _)

theorem State.mapBit_id {s : State} (h : s.storage.wf) : s.mapBit id = s :=
  congrArg s.withStorage (Memory.writeBit_bit_self h _)

/-! ### The commands -/

/-- A command whose first operand is an index halts a checked block when that index is not below `n` (R170, R272). -/
theorem exec_of_indexOutOfRange {i : Instr} {s : State} (hread : readsArg0 i = true) (hi : i ∉ [Instr.create, .resize])
    (hv : s.status.valid = true) (hn : s.n ≤ s.arg0.toNat) (hc : s.checks = .checked) :
    exec i s = .next (s.haltedBy .indexOutOfRange (opcode i) s.arg0) := by
  have hfatal : exec i s = commandFatal i .indexOutOfRange s.arg0 s := by
    cases i with
    | create | resize => exact absurd (by decide) hi
    | get | set | clear | toggle | setRegion | clearRegion | toggleRegion
    | findNextClear | findNextSet | findPrevClear | findPrevSet =>
      exact (checkInstance_pass hv _ _).trans (checkIndex_fail hn _ _)
    | _ => exact nomatch hread
  exact hfatal.trans (commandFatal_checked hc _ _ _)

/-- With a vector and the index in range, `i` stores `f` of the addressed bit and succeeds. -/
def storesBit (i : Instr) (f : Bool → Bool) : Prop :=
  ∀ s : State, s.status.valid = true → s.n ≤ s.maxBits → s.arg0.toNat < s.n → exec i s = .next (s.mapBit f).succeeded

theorem storesBit_set : storesBit .set fun _ => true :=
  fun _ hv hm hn => exec_of_bodyRuns (i := .set) ⟨hv, hn, storageFits_of_le hm⟩

theorem storesBit_clear : storesBit .clear fun _ => false :=
  fun _ hv hm hn => exec_of_bodyRuns (i := .clear) ⟨hv, hn, storageFits_of_le hm⟩

theorem storesBit_toggle : storesBit .toggle fun b => !b :=
  fun _ hv hm hn => exec_of_bodyRuns (i := .toggle) ⟨hv, hn, storageFits_of_le hm⟩

section
variable {i : Instr} {f : Bool → Bool} {s : State} (h : storesBit i f) (hv : s.status.valid = true)
  (hm : s.n ≤ s.maxBits) (hn : s.arg0.toNat < s.n)
include h hv hm hn

/-- Every position but the addressed one, and every register but ERR, ECODE and BUSY, stays. -/
theorem storesBit.frame : ∃ t, exec i s = .next t ∧ t = { s.succeeded with storage := t.storage } ∧
    ∀ j, t.bit j = if j = s.arg0.toNat then f (s.bit j) else s.bit j :=
  ⟨_, h s hv hm hn, rfl, State.bit_mapBit f s⟩

/-- The command once more, from the state it left: the index is in range there too. -/
theorem storesBit.again (hw : s.storage.wf) :
    exec i (s.mapBit f).succeeded = .next (s.mapBit (f ∘ f)).succeeded := by
  rw [h (s.mapBit f).succeeded hv hm hn, State.mapBit_succeeded, State.mapBit_mapBit hw, State.succeeded_succeeded]

end

/-- Settles O23. -/
theorem singleBitWriteCommands : Obligations.SingleBitWriteCommands := by
  intro p hp s
  simp only [List.mem_cons, List.not_mem_nil, or_false] at hp
  obtain rfl | rfl | rfl := hp
  all_goals refine ⟨exec_of_noInstance (by decide), exec_of_indexOutOfRange rfl (by decide), ?_⟩
  · exact storesBit_set.frame
  · exact storesBit_clear.frame
  · exact storesBit_toggle.frame

/-- Settles O24: a constant function applied twice is that function. -/
theorem setAndClearAreIdempotent : Obligations.SetAndClearAreIdempotent := by
  intro i hi s hw hv hm hn
  simp only [List.mem_cons, List.not_mem_nil, or_false] at hi
  obtain rfl | rfl := hi
  · exact ⟨_, storesBit_set s hv hm hn, storesBit_set.again hv hm hn hw⟩
  · exact ⟨_, storesBit_clear s hv hm hn, storesBit_clear.again hv hm hn hw⟩

/-- Settles O25: negation applied twice is the identity. -/
theorem toggleIsAnInvolution : Obligations.ToggleIsAnInvolution := by
  intro s hw hv hm hn
  have hnot : (fun b => !b) ∘ (fun b => !b) = id := funext Bool.not_not
  refine ⟨_, storesBit_toggle s hv hm hn, ?_⟩
  rw [storesBit_toggle.again hv hm hn hw, hnot, State.mapBit_id hw]

/-- Settles O22. -/
theorem getCommand : Obligations.GetCommand := by
  intro s
  exact ⟨exec_of_noInstance (by decide), exec_of_indexOutOfRange rfl (by decide),
    fun hv hm hn => exec_of_bodyRuns (i := .get) ⟨hv, hn, storageFits_of_le hm⟩⟩

end Sys2Proof.Machine
end

section
/-! Proofs for 42_region_ops.md: the class-2 commands over a byte-mask region and the class-3 commands over the whole vector.
Both apply one operation to one range of positions, so what holds of the range is proved once, for every operation and both
classes (R192, R193, R195 to R197, R200 to R203, R205, R272). -/

namespace Sys2Proof.Machine

/-! ### The operation on a range of positions -/

/-- The positions `lo` to `hi` of the storage take the operation (R192). -/
def State.mapRange (op : RegionKind) (lo hi : Nat) (s : State) : State :=
  s.withStorage (regionOp op lo hi s.storage)

theorem State.bit_mapRange (op : RegionKind) {lo hi : Nat} (h : lo ≤ hi) (s : State) (j : Nat) :
    (s.mapRange op lo hi).bit j = if lo ≤ j ∧ j ≤ hi then op.onBit (s.bit j) else s.bit j :=
  bit_regionOp op h s.storage j

/-- A range toggled twice is as before, in the canonical form. -/
theorem regionOp_toggle_toggle {lo hi : Nat} (h : lo ≤ hi) {m : Memory} (hw : m.wf) :
    regionOp .toggle lo hi (regionOp .toggle lo hi m) = m := by
  refine Memory.ext_bits (wf_regionOp _ h (wf_regionOp _ h hw)) hw fun j => ?_
  rw [bit_regionOp _ h, bit_regionOp _ h]
  by_cases hj : lo ≤ j ∧ j ≤ hi
  · rw [if_pos hj, if_pos hj]
    exact Bool.not_not _
  · rw [if_neg hj, if_neg hj]

theorem State.mapRange_toggle_toggle {lo hi : Nat} (h : lo ≤ hi) {s : State} (hw : s.storage.wf) :
    ((s.mapRange .toggle lo hi).succeeded.mapRange .toggle lo hi).succeeded = s.succeeded :=
  congrArg (fun m => (s.withStorage m).succeeded) (regionOp_toggle_toggle h hw)

/-! ### The operand registers -/

@[simp] theorem State.withArgs_arg0 (s : State) (a b : Word) : (s.withArgs a b).arg0 = a := rfl

@[simp] theorem State.withArgs_arg1 (s : State) (a b : Word) : (s.withArgs a b).arg1 = b := rfl

/-! ### The checks that stop a command -/

/-- ARG1 is checked only after ARG0 has passed, and an ARG1 not below `n` halts a checked block (R193, R272). -/
theorem exec_of_arg1OutOfRange {i : Instr} {s : State} (hread : readsArg1 i = true) (hv : s.status.valid = true)
    (h0 : s.arg0.toNat < s.n) (h1 : s.n ≤ s.arg1.toNat) (hc : s.checks = .checked) :
    exec i s = .next (s.haltedBy .indexOutOfRange (opcode i) s.arg1) := by
  have hfatal : exec i s = commandFatal i .indexOutOfRange s.arg1 s := by
    cases i with
    | setRegion | clearRegion | toggleRegion =>
      exact (checkInstance_pass hv _ _).trans ((checkIndex_pass h0 _ _).trans (checkIndex_fail h1 _ _))
    | _ => exact nomatch hread
  exact hfatal.trans (commandFatal_checked hc _ _ _)

/-- A command over the whole vector halts a checked block whose vector is empty (R200, 44_search.md R250). -/
theorem exec_of_emptyVector {i : Instr} {s : State}
    (hi : i ∈ [Instr.setAll, .clearAll, .toggleAll, .firstClear, .firstSet, .lastClear, .lastSet])
    (hv : s.status.valid = true) (hn : s.n = 0) (hc : s.checks = .checked) :
    exec i s = .next (s.haltedBy .indexOutOfRange (opcode i) 0#32) := by
  have hfatal : exec i s = commandFatal i .indexOutOfRange 0#32 s := by
    cases i with
    | setAll | clearAll | toggleAll | firstClear | firstSet | lastClear | lastSet =>
      exact (checkInstance_pass hv _ _).trans (checkNonempty_fail hn _ _)
    | _ => exact absurd hi (by decide)
  exact hfatal.trans (commandFatal_checked hc _ _ _)

/-! ### The commands of an operation -/

/-- The class-2 command of an operation (R195 to R197). -/
def RegionKind.regionInstr : RegionKind → Instr
  | .set => .setRegion
  | .clear => .clearRegion
  | .toggle => .toggleRegion

/-- The class-3 command of an operation (R201 to R203). -/
def RegionKind.wholeInstr : RegionKind → Instr
  | .set => .setAll
  | .clear => .clearAll
  | .toggle => .toggleAll

section
variable (op : RegionKind) {s : State} (hv : s.status.valid = true) (hm : s.n ≤ s.maxBits)
include hv hm

theorem exec_regionInstr (h0 : s.arg0.toNat < s.n) (h1 : s.arg1.toNat < s.n) :
    exec op.regionInstr s =
      .next (s.mapRange op (min s.arg0.toNat s.arg1.toNat) (max s.arg0.toNat s.arg1.toNat)).succeeded := by
  cases op with
  | set | clear | toggle => exact exec_of_bodyRuns ⟨hv, h0, h1, storageFits_of_le hm⟩

theorem exec_wholeInstr (hn : s.n ≠ 0) :
    exec op.wholeInstr s = .next (s.mapRange op 0 (s.n - 1)).succeeded := by
  cases op with
  | set | clear | toggle => exact exec_of_bodyRuns ⟨hv, hn, storageFits_of_le hm⟩

/-- Every position outside the two ends, and every register but ERR, ECODE and BUSY, stays (R192, R193). -/
theorem exec_regionInstr_frame (h0 : s.arg0.toNat < s.n) (h1 : s.arg1.toNat < s.n) :
    ∃ t, exec op.regionInstr s = .next t ∧ t = { s.succeeded with storage := t.storage } ∧
      ∀ j, t.bit j = if min s.arg0.toNat s.arg1.toNat ≤ j ∧ j ≤ max s.arg0.toNat s.arg1.toNat then op.onBit (s.bit j)
        else s.bit j :=
  ⟨_, exec_regionInstr op hv hm h0 h1, rfl, State.bit_mapRange op min_le_max s⟩

/-- Every position from `n` on, and every register but ERR, ECODE and BUSY, stays (R200). -/
theorem exec_wholeInstr_frame (hn : s.n ≠ 0) :
    ∃ t, exec op.wholeInstr s = .next t ∧ t = { s.succeeded with storage := t.storage } ∧
      ∀ j, t.bit j = if j < s.n then op.onBit (s.bit j) else s.bit j := by
  refine ⟨_, exec_wholeInstr op hv hm hn, rfl, fun j => ?_⟩
  have hrange : (0 ≤ j ∧ j ≤ s.n - 1) = (j < s.n) := propext (by omega)
  exact (State.bit_mapRange op (Nat.zero_le _) s j).trans (ite_congr hrange (fun _ => rfl) fun _ => rfl)

/-- The whole-vector command does what the region command does over the ends 0 and `n - 1` (R205). -/
theorem exec_wholeInstr_eq_fullRegion (hn : s.n ≠ 0) :
    ∃ t, exec op.wholeInstr s = .next t ∧
      exec op.regionInstr (s.withArgs 0#32 (BitVec.ofNat 32 (s.n - 1))) =
        .next (t.withArgs 0#32 (BitVec.ofNat 32 (s.n - 1))) := by
  have hlast : (BitVec.ofNat 32 (s.n - 1)).toNat = s.n - 1 :=
    Nat.mod_eq_of_lt (Nat.lt_of_le_of_lt (Nat.sub_le _ _) s.bitcount.isLt)
  have hregion := exec_regionInstr op (s := s.withArgs 0#32 (BitVec.ofNat 32 (s.n - 1))) hv hm
    (Nat.pos_of_ne_zero hn) (hlast.trans_lt (Nat.sub_one_lt hn))
  simp only [State.withArgs_arg0, State.withArgs_arg1, hlast, BitVec.toNat_zero, Nat.zero_min, Nat.zero_max] at hregion
  exact ⟨_, exec_wholeInstr op hv hm hn, hregion⟩

end

/-! ### The obligations -/

/-- Settles O26: ARG0 is checked before ARG1, and the body runs over the two ends put in order. -/
theorem regionCommands : Obligations.RegionCommands := by
  intro p hp s
  simp only [List.mem_cons, List.not_mem_nil, or_false] at hp
  obtain rfl | rfl | rfl := hp
  all_goals refine ⟨exec_of_noInstance (by decide), exec_of_indexOutOfRange rfl (by decide),
    exec_of_arg1OutOfRange rfl, ?_⟩
  · exact exec_regionInstr_frame .set
  · exact exec_regionInstr_frame .clear
  · exact exec_regionInstr_frame .toggle

/-- Settles O27: the body runs over the positions 0 to `n - 1`, once the vector is known not to be empty. -/
theorem wholeVectorCommands : Obligations.WholeVectorCommands := by
  intro p hp s
  simp only [List.mem_cons, List.not_mem_nil, or_false] at hp
  obtain rfl | rfl | rfl := hp
  all_goals refine ⟨exec_of_noInstance (by decide), exec_of_emptyVector (by decide), ?_⟩
  · exact exec_wholeInstr_frame .set
  · exact exec_wholeInstr_frame .clear
  · exact exec_wholeInstr_frame .toggle

/-- Settles O28: both commands are the one operation over `[0, n - 1]`; with `n = 0` no index is below `n`. -/
theorem wholeVectorEqualsFullRegion : Obligations.WholeVectorEqualsFullRegion := by
  intro p hp s hv hm
  simp only [List.mem_cons, List.not_mem_nil, or_false] at hp
  obtain rfl | rfl | rfl := hp
  all_goals refine ⟨?_, fun hn hc =>
    ⟨_, _, exec_of_emptyVector (by decide) hv hn hc, rfl,
      exec_of_indexOutOfRange rfl (by decide) hv (hn ▸ Nat.zero_le _) hc, rfl⟩⟩
  · exact exec_wholeInstr_eq_fullRegion .set hv hm
  · exact exec_wholeInstr_eq_fullRegion .clear hv hm
  · exact exec_wholeInstr_eq_fullRegion .toggle hv hm

/-- Settles O29: the second run has the same ends, since the first leaves ARG0, ARG1 and BITCOUNT alone. -/
theorem regionTogglesAreInvolutions : Obligations.RegionTogglesAreInvolutions := by
  intro s hw hv hm
  refine ⟨fun h0 h1 => ⟨_, exec_regionInstr .toggle hv hm h0 h1, ?_⟩,
    fun hn => ⟨_, exec_wholeInstr .toggle hv hm hn, ?_⟩⟩
  · have again := exec_regionInstr .toggle
      (s := (s.mapRange .toggle (min s.arg0.toNat s.arg1.toNat) (max s.arg0.toNat s.arg1.toNat)).succeeded) hv hm h0 h1
    exact again.trans (congrArg Host.Outcome.next (State.mapRange_toggle_toggle min_le_max hw))
  · have again := exec_wholeInstr .toggle (s := (s.mapRange .toggle 0 (s.n - 1)).succeeded) hv hm hn
    exact again.trans (congrArg Host.Outcome.next (State.mapRange_toggle_toggle (Nat.zero_le _) hw))

end Sys2Proof.Machine
end

section
/-! Proofs for 43_popcount.md: the table holds the count of each byte, and each of the two commands counts the vector bits of
one value; every index has one value or the other, so the two counts add up to `n` (R220, R222 to R226). -/

namespace Sys2Proof.Machine

/-! ### The table -/

/-- Settles O30: the bits of a byte, counted from bit index 0 on, are its positions from 7 down. -/
theorem lutHoldsPopulationCounts : Obligations.LutHoldsPopulationCounts := by
  intro b
  calc (lut b).toNat
    _ = bitSum [(0, b)] 0 8 := (bitSum_byte [(0, b)] 0).symm
    _ = (List.range 8).countP (Memory.bit [(0, b)]) := bitSum_eq_countP _ _
    _ = (List.range 8).reverse.countP b.getLsbD := rfl
    _ = (List.range 8).countP b.getLsbD := List.countP_reverse

/-! ### The two counts -/

/-- Every index below `n` holds a set bit or a clear one. -/
theorem countP_set_add_countP_clear (m : Memory) (n : Nat) :
    (List.range n).countP m.bit + (List.range n).countP (fun i => m.bit i == false) = n := by
  have hlength := List.length_eq_countP_add_countP m.bit (l := List.range n)
  simpa using hlength.symm

/-- Subtracting `CountSet()` from `n` leaves the number of indices below `n` whose bit is 0 (R225). -/
theorem sub_countSet_eq (n : Nat) (m : Memory) :
    n - countSet n m = (List.range n).countP fun i => m.bit i == false := by
  rw [countSet_eq]
  exact Nat.sub_eq_of_eq_add' (countP_set_add_countP_clear m n).symm

/-- A number of indices below `n` fits in a register, since BITCOUNT is one. -/
theorem State.toNat_ofNat_of_le_n {s : State} {c : Nat} (h : c ≤ s.n) : (BitVec.ofNat 32 c).toNat = c :=
  Nat.mod_eq_of_lt (h.trans_lt s.bitcount.isLt)

section
variable {s : State} (hv : s.status.valid = true) (hm : s.n ≤ s.maxBits)
include hv hm

/-- Every register but RESULT, ERR, ECODE and BUSY stays (R223, R224). -/
theorem exec_countSet_frame : ∃ t, exec .countSet s = .next t ∧ t = { s.succeeded with result := t.result } ∧
    t.result.toNat = (List.range s.n).countP s.bit :=
  ⟨_, exec_of_bodyRuns (i := .countSet) ⟨hv, storageFits_of_le hm⟩, rfl,
    (State.toNat_ofNat_of_le_n (countSet_le _ _)).trans (countSet_eq _ _)⟩

/-- Every register but RESULT, ERR, ECODE and BUSY stays (R225). -/
theorem exec_countClear_frame : ∃ t, exec .countClear s = .next t ∧ t = { s.succeeded with result := t.result } ∧
    t.result.toNat = (List.range s.n).countP fun i => s.bit i == false :=
  ⟨_, exec_of_bodyRuns (i := .countClear) ⟨hv, storageFits_of_le hm⟩, rfl,
    (State.toNat_ofNat_of_le_n (Nat.sub_le _ _)).trans (sub_countSet_eq _ _)⟩

end

/-! ### The obligations -/

/-- Settles O31: neither command checks an index or `n`, so with a vector both run their body. -/
theorem countCommands : Obligations.CountCommands := by
  intro p hp s
  simp only [List.mem_cons, List.not_mem_nil, or_false] at hp
  obtain rfl | rfl := hp
  all_goals refine ⟨exec_of_noInstance (by decide), ?_⟩
  · simpa only [beq_true] using exec_countSet_frame
  · exact exec_countClear_frame

/-- Settles O32. -/
theorem countsAddUpToBitCount : Obligations.CountsAddUpToBitCount := by
  intro s hv hm
  obtain ⟨t, hset, -, ht⟩ := exec_countSet_frame hv hm
  obtain ⟨u, hclear, -, hu⟩ := exec_countClear_frame hv hm
  refine ⟨t, u, hset, hclear, ?_, ht⟩
  rw [ht, hu]
  exact countP_set_add_countP_clear s.storage s.n

end Sys2Proof.Machine
end

section
/-! Proofs for 44_search.md: what the forward and the backward search answer is fixed by the bits of their range, and the
eight commands run one of the two from ARG0 or from the anchored end (R240, R241, R243, R250 to R256, R272). -/

namespace Sys2Proof.Machine

/-! ### The two searches, by the bits of their range -/

section
variable {t : Bool} {n f i : Nat} {m : Memory}

theorem findNext_eq_some (hfi : f ≤ i) (hin : i < n) (hi : m.bit i = t)
    (hleast : ∀ j, f ≤ j → j < i → m.bit j ≠ t) : findNext t n f m = some i := by
  have spec := findNext_spec t m (hfi.trans_lt hin)
  cases hr : findNext t n f m with
  | none =>
    rw [hr] at spec
    exact absurd hi (spec i hfi hin)
  | some k =>
    rw [hr] at spec
    obtain ⟨hfk, -, hk, hleast_k⟩ := spec
    have hki : ¬ k < i := fun hlt => hleast k hfk hlt hk
    have hik : ¬ i < k := fun hlt => hleast_k i hfi hlt hi
    exact congrArg some (by omega)

theorem findNext_eq_none (hf : f < n) (hnone : ∀ i, f ≤ i → i < n → m.bit i ≠ t) : findNext t n f m = none := by
  have spec := findNext_spec t m hf
  cases hr : findNext t n f m with
  | none => rfl
  | some k =>
    rw [hr] at spec
    obtain ⟨hfk, hkn, hk, -⟩ := spec
    exact absurd hk (hnone k hfk hkn)

theorem findPrev_eq_some (hif : i ≤ f) (hi : m.bit i = t) (hgreatest : ∀ j, j ≤ f → i < j → m.bit j ≠ t) :
    findPrev t f m = some i := by
  have spec := findPrev_spec t m (f := f)
  cases hr : findPrev t f m with
  | none =>
    rw [hr] at spec
    exact absurd hi (spec i hif)
  | some k =>
    rw [hr] at spec
    obtain ⟨hkf, hk, hgreatest_k⟩ := spec
    have hik : ¬ i < k := fun hlt => hgreatest k hkf hlt hk
    have hki : ¬ k < i := fun hlt => hgreatest_k i hif hlt hi
    exact congrArg some (by omega)

theorem findPrev_eq_none (hnone : ∀ i, i ≤ f → m.bit i ≠ t) : findPrev t f m = none := by
  have spec := findPrev_spec t m (f := f)
  cases hr : findPrev t f m with
  | none => rfl
  | some k =>
    rw [hr] at spec
    obtain ⟨hkf, hk, -⟩ := spec
    exact absurd hk (hnone k hkf)

end

/-! ### The commands that run a search -/

section
variable {s : State} {t : Bool} {f : Nat} {r : Result}

/-- A command that records a forward search answers the least match from `f` on, or not found (R240, R243). -/
theorem result_of_findNext (hf : f < s.n) (hr : r = .next (s.withSearch (findNext t s.n f s.storage)).succeeded) :
    (∀ i, f ≤ i → i < s.n → s.bit i = t → (∀ j, f ≤ j → j < i → s.bit j ≠ t) →
      r = .next (s.withSearch (some i)).succeeded) ∧
    ((∀ i, f ≤ i → i < s.n → s.bit i ≠ t) → r = .next (s.withSearch none).succeeded) := by
  refine ⟨fun i hfi hin hi hleast => ?_, fun hnone => ?_⟩
  · rw [hr, findNext_eq_some hfi hin hi hleast]
  · rw [hr, findNext_eq_none hf hnone]

/-- A command that records a backward search answers the greatest match down from `f`, or not found (R241, R243). -/
theorem result_of_findPrev (hr : r = .next (s.withSearch (findPrev t f s.storage)).succeeded) :
    (∀ i, i ≤ f → s.bit i = t → (∀ j, j ≤ f → i < j → s.bit j ≠ t) →
      r = .next (s.withSearch (some i)).succeeded) ∧
    ((∀ i, i ≤ f → s.bit i ≠ t) → r = .next (s.withSearch none).succeeded) := by
  refine ⟨fun i hif hi hgreatest => ?_, fun hnone => ?_⟩
  · rw [hr, findPrev_eq_some hif hi hgreatest]
  · rw [hr, findPrev_eq_none hnone]

/-- From index 0 on is every index. -/
theorem result_of_findNext_zero (hn : s.n ≠ 0)
    (hr : r = .next (s.withSearch (findNext t s.n 0 s.storage)).succeeded) :
    (∀ i, i < s.n → s.bit i = t → (∀ j, j < i → s.bit j ≠ t) → r = .next (s.withSearch (some i)).succeeded) ∧
    ((∀ i, i < s.n → s.bit i ≠ t) → r = .next (s.withSearch none).succeeded) := by
  simpa only [Nat.zero_le, forall_const] using result_of_findNext (Nat.pos_of_ne_zero hn) hr

/-- Down from index `n - 1` is every vector index and no pad position. -/
theorem result_of_findPrev_last (hn : s.n ≠ 0)
    (hr : r = .next (s.withSearch (findPrev t (s.n - 1) s.storage)).succeeded) :
    (∀ i, i < s.n → s.bit i = t → (∀ j, j < s.n → i < j → s.bit j ≠ t) →
      r = .next (s.withSearch (some i)).succeeded) ∧
    ((∀ i, i < s.n → s.bit i ≠ t) → r = .next (s.withSearch none).succeeded) := by
  simpa only [Nat.le_sub_one_iff_lt (Nat.pos_of_ne_zero hn)] using result_of_findPrev hr

end

section
variable {s : State} (hv : s.status.valid = true) (hm : s.n ≤ s.maxBits) {n : Nat} (hn : s.n = n) {w : Word}
  (hw : w.toNat < n) {r : Option Nat}
include hv hm hn hw

/-- FIND_NEXT_SET with its start index in ARG0 (R246). -/
theorem exec_findNextSet_from (hr : findNext true n w.toNat s.storage = r) :
    exec .findNextSet { s with arg0 := w } = .next (State.withSearch r { s with arg0 := w }).succeeded := by
  subst hn hr
  exact exec_of_bodyRuns (i := .findNextSet) ⟨hv, hw, storageFits_of_le hm⟩

/-- FIND_PREV_SET with its start index in ARG0 (R249). -/
theorem exec_findPrevSet_from (hr : findPrev true w.toNat s.storage = r) :
    exec .findPrevSet { s with arg0 := w } = .next (State.withSearch r { s with arg0 := w }).succeeded := by
  subst hn hr
  exact exec_of_bodyRuns (i := .findPrevSet) ⟨hv, hw, storageFits_of_le hm⟩

end

/-! ### The obligations -/

/-- Settles O33: in range, the body is the forward search from ARG0. -/
theorem findNextCommands : Obligations.FindNextCommands := by
  intro p hp s
  simp only [List.mem_cons, List.not_mem_nil, or_false] at hp
  obtain rfl | rfl := hp
  all_goals exact ⟨exec_of_noInstance (by decide), exec_of_indexOutOfRange rfl (by decide), fun hv hm hn =>
    result_of_findNext hn (exec_of_bodyRuns ⟨hv, hn, storageFits_of_le hm⟩)⟩

/-- Settles O34: in range, the body is the backward search from ARG0. -/
theorem findPrevCommands : Obligations.FindPrevCommands := by
  intro p hp s
  simp only [List.mem_cons, List.not_mem_nil, or_false] at hp
  obtain rfl | rfl := hp
  all_goals exact ⟨exec_of_noInstance (by decide), exec_of_indexOutOfRange rfl (by decide), fun hv hm hn =>
    result_of_findPrev (exec_of_bodyRuns ⟨hv, hn, storageFits_of_le hm⟩)⟩

/-- Settles O35: the body is the forward search from index 0. -/
theorem firstCommands : Obligations.FirstCommands := by
  intro p hp s
  simp only [List.mem_cons, List.not_mem_nil, or_false] at hp
  obtain rfl | rfl := hp
  all_goals exact ⟨exec_of_noInstance (by decide), exec_of_emptyVector (by decide), fun hv hm hn =>
    result_of_findNext_zero hn (exec_of_bodyRuns ⟨hv, hn, storageFits_of_le hm⟩)⟩

/-- Settles O36: the body is the backward search from index `n - 1`. -/
theorem lastCommands : Obligations.LastCommands := by
  intro p hp s
  simp only [List.mem_cons, List.not_mem_nil, or_false] at hp
  obtain rfl | rfl := hp
  all_goals exact ⟨exec_of_noInstance (by decide), exec_of_emptyVector (by decide), fun hv hm hn =>
    result_of_findPrev_last hn (exec_of_bodyRuns ⟨hv, hn, storageFits_of_le hm⟩)⟩

/-- Settles O37: the six answers are read off the two set bits, whatever else the storage holds. -/
theorem searchContract : Obligations.SearchContract := by
  intro s hv hn hm hbits p hp
  have h69 : s.storage.bit 69 = true := (hbits 69 (by decide)).mpr (.inl rfl)
  have h420 : s.storage.bit 420 = true := (hbits 420 (by decide)).mpr (.inr rfl)
  have hclear : ∀ j, j < 777 → ¬ (j = 69 ∨ j = 420) → s.storage.bit j ≠ true := fun j hj => mt (hbits j hj).mp
  simp only [List.mem_cons, List.not_mem_nil, or_false] at hp
  obtain rfl | rfl | rfl | rfl | rfl | rfl := hp
  · exact ⟨_, exec_findNextSet_from hv hm hn (by decide) (findNext_eq_some (by decide) (by decide) h69
      fun j _ hj => hclear j (by omega) (by omega)), rfl, rfl⟩
  · exact ⟨_, exec_findNextSet_from hv hm hn (by decide) (findNext_eq_some (by decide) (by decide) h420
      fun j (hfj : 70 ≤ j) hj => hclear j (by omega) (by omega)), rfl, rfl⟩
  · exact ⟨_, exec_findNextSet_from hv hm hn (by decide) (findNext_eq_none (by decide)
      fun j (hfj : 421 ≤ j) hj => hclear j (by omega) (by omega)), rfl, rfl⟩
  · exact ⟨_, exec_findPrevSet_from hv hm hn (by decide) (findPrev_eq_some (by decide) h420
      fun j (hjf : j ≤ 776) hj => hclear j (by omega) (by omega)), rfl, rfl⟩
  · exact ⟨_, exec_findPrevSet_from hv hm hn (by decide) (findPrev_eq_some (by decide) h69
      fun j (hjf : j ≤ 419) hj => hclear j (by omega) (by omega)), rfl, rfl⟩
  · exact ⟨_, exec_findPrevSet_from hv hm hn (by decide) (findPrev_eq_none
      fun j (hjf : j ≤ 68) => hclear j (by omega) (by omega)), rfl, rfl⟩

end Sys2Proof.Machine
end

section
/-! Proofs for 60_exceptions.md, how a command and a step end: the three ends of a command, the illegal command, and the
idle block (R273, R275, R278, R280, R281, R291). -/

namespace Sys2Proof.Machine

/-- Settles O15: a command that answers a next state was halted, has reported, or has run its body, and no body writes
FAULT, ERROP or ERRINFO. -/
theorem commandEndsOneOfThreeWays : Obligations.CommandEndsOneOfThreeWays := by
  intro i s t h
  obtain ⟨-, c, v, hc, rfl⟩ | hreport | ⟨-, rfl⟩ := exec_next h
  · exact .inl ⟨c, v, hc, rfl⟩
  · exact .inr (.inl hreport)
  · rw [bodyState_frame]
    exact .inr (.inr ⟨rfl, rfl, rfl, rfl, rfl, rfl⟩)

/-- A word that is no command's word does not decode (30_encoding.md R118, R120). -/
theorem decode_error_of_ne_encode {w : Word} (h : ∀ i, w ≠ encode i) : ∃ e, decode w = .error e := by
  cases hd : decode w with
  | ok i => exact absurd (eq_encode_of_decode hd) (h i)
  | error e => exact ⟨e, rfl⟩

/-- Settles O5. -/
theorem illegalCommandHalts : Obligations.IllegalCommandHalts := by
  intro s hc hturn hw
  obtain ⟨e, he⟩ := decode_error_of_ne_encode hw
  calc step s = engineStep s := step_of_engineTurn hturn
    _ = raiseFatal .illegalCommand (opcodeByte s.cmd) s.cmd s.withoutBusy := engineStep_error he
    _ = .next (s.haltedBy .illegalCommand (opcodeByte s.cmd) s.cmd) := raiseFatal_checked (s := s.withoutBusy) hc _ _ _

/-- Settles O6. -/
theorem idleBlockDoesNothing : Obligations.IdleBlockDoesNothing := by
  intro s hb hi
  exact step_idle ((nextMove_idle_iff s).mpr ⟨hi, hb⟩)

end Sys2Proof.Machine
end

section
/-! Proofs for 60_exceptions.md, the two builds (R284): one block run in the checked and in the unchecked build. The build
is looked at where a fatal failure is raised and nowhere else, so the two runs part there and nowhere else. -/

namespace Sys2Proof.Machine

/-- The same block in another build. -/
def State.withChecks (b : Checks) (s : State) : State := { s with checks := b }

/-- What the checked build and the unchecked build may answer to one move of a block that is not halted: where the
checked one halts the unchecked one refuses (R284), and otherwise the two answer the same. -/
inductive buildsAgree : Result → Result → Prop
  | halts {t : State} (h : t.status.fault = true) : buildsAgree (.next t) (.refused .uncheckedBuild)
  | runs {t : State} (h : t.status.fault = false) : buildsAgree (.next t) (.next (t.withChecks .unchecked))
  | stops (f : Fault) : buildsAgree (.fault f) (.fault f)
  | refuses {r : Refusal} (h : r ≠ .uncheckedBuild) : buildsAgree (.refused r) (.refused r)

/-! ### What agreement says of the two answers -/

theorem buildsAgree.refused_iff {p q : Result} (h : buildsAgree p q) :
    q = .refused .uncheckedBuild ↔ ∃ t, p = .next t ∧ t.status.fault = true := by
  cases h with
  | halts ht => exact iff_of_true rfl ⟨_, rfl, ht⟩
  | runs ht =>
    refine iff_of_false nofun ?_
    rintro ⟨_, ⟨⟩, hf⟩
    exact nomatch ht.symm.trans hf
  | stops => exact iff_of_false nofun nofun
  | refuses hr => exact iff_of_false (fun e => hr (by injection e)) nofun

theorem buildsAgree.next_of_running {t : State} {q : Result} (h : buildsAgree (.next t) q)
    (hf : t.status.fault = false) : q = .next (t.withChecks .unchecked) := by
  cases h with
  | halts ht => exact nomatch hf.symm.trans ht
  | runs => rfl

/-- Two results chosen by one condition. -/
theorem buildsAgree.ite {c : Prop} [Decidable c] {k l k' l' : Result} (h : buildsAgree k l) (h' : buildsAgree k' l') :
    buildsAgree (if c then k else k') (if c then l else l') := by
  split
  · exact h
  · exact h'

/-! ### The bodies do not look at the build -/

theorem State.withSearch_withChecks (b : Checks) (s : State) (r : Option Nat) :
    (s.withChecks b).withSearch r = (s.withSearch r).withChecks b := by cases r <;> rfl

theorem bodyState_withChecks (i : Instr) (b : Checks) (s : State) :
    bodyState i (s.withChecks b) = (bodyState i s).withChecks b := by
  cases i with
  | findNextClear | findNextSet | findPrevClear | findPrevSet | firstClear | firstSet | lastClear | lastSet =>
    exact State.withSearch_withChecks b s _
  | _ => rfl

theorem regValue_withChecks (r : Reg) (b : Checks) (s : State) : regValue r (s.withChecks b) = regValue r s := by
  cases r <;> rfl

section
variable {i : Instr} {s : State} {k l : Result}

/-! ### Where the builds do not part -/

theorem checkStorage_buildsAgree (h : buildsAgree k l) :
    buildsAgree (checkStorage s k) (checkStorage (s.withChecks .unchecked) l) :=
  .ite h (.stops _)

/-- The recoverable failure is the same in both builds (R280). -/
theorem checkCapacity_buildsAgree (hf : s.status.fault = false) (h : buildsAgree k l) (c : Word) :
    buildsAgree (checkCapacity i c s k) (checkCapacity i c (s.withChecks .unchecked) l) :=
  .ite (.runs hf) h

theorem complete_bodyState_buildsAgree (hf : s.status.fault = false) (i : Instr) :
    buildsAgree (complete (bodyState i s)) (complete (bodyState i (s.withChecks .unchecked))) := by
  rw [bodyState_withChecks]
  exact .runs ((bodyState_fault i s).trans hf)

/-! ### Where they part, and the checks that lead there -/

section
variable (hc : s.checks = .checked)
include hc

theorem raiseFatal_buildsAgree (c : ECode) (o : Byte) (v : Word) :
    buildsAgree (raiseFatal c o v s) (raiseFatal c o v (s.withChecks .unchecked)) := by
  rw [raiseFatal_checked hc, raiseFatal_unchecked rfl]
  exact .halts rfl

theorem commandFatal_buildsAgree (i : Instr) (c : ECode) (v : Word) :
    buildsAgree (commandFatal i c v s) (commandFatal i c v (s.withChecks .unchecked)) :=
  raiseFatal_buildsAgree (s := s.withoutBusy) hc c _ v

theorem checkInstance_buildsAgree (h : buildsAgree k l) :
    buildsAgree (checkInstance i s k) (checkInstance i (s.withChecks .unchecked) l) :=
  .ite h (commandFatal_buildsAgree hc i _ _)

theorem checkIndex_buildsAgree (h : buildsAgree k l) (x : Word) :
    buildsAgree (checkIndex i x s k) (checkIndex i x (s.withChecks .unchecked) l) :=
  .ite h (commandFatal_buildsAgree hc i _ _)

theorem checkNonempty_buildsAgree (h : buildsAgree k l) :
    buildsAgree (checkNonempty i s k) (checkNonempty i (s.withChecks .unchecked) l) :=
  .ite (commandFatal_buildsAgree hc i _ _) h

/-! ### Each move, of a block that is not halted -/

variable (hf : s.status.fault = false)
include hf

theorem exec_buildsAgree (i : Instr) : buildsAgree (exec i s) (exec i (s.withChecks .unchecked)) := by
  have body := complete_bodyState_buildsAgree hf i
  cases i with
  | nop => exact body
  | create => exact checkCapacity_buildsAgree hf body _
  | resize => exact checkInstance_buildsAgree hc (checkCapacity_buildsAgree hf body _)
  | destroy => exact checkInstance_buildsAgree hc body
  | setRegion | clearRegion | toggleRegion =>
    exact checkInstance_buildsAgree hc (checkIndex_buildsAgree hc (checkIndex_buildsAgree hc
      (checkStorage_buildsAgree body) _) _)
  | countSet | countClear => exact checkInstance_buildsAgree hc (checkStorage_buildsAgree body)
  | setAll | clearAll | toggleAll | firstClear | firstSet | lastClear | lastSet =>
    exact checkInstance_buildsAgree hc (checkNonempty_buildsAgree hc (checkStorage_buildsAgree body))
  | get | set | clear | toggle | findNextClear | findNextSet | findPrevClear | findPrevSet =>
    exact checkInstance_buildsAgree hc (checkIndex_buildsAgree hc (checkStorage_buildsAgree body) _)

theorem engineStep_buildsAgree : buildsAgree (engineStep s) (engineStep (s.withChecks .unchecked)) := by
  cases hd : decode s.cmd with
  | ok i =>
    rw [engineStep_ok hd, engineStep_ok (s := s.withChecks .unchecked) hd]
    exact exec_buildsAgree hc hf i
  | error e =>
    rw [engineStep_error hd, engineStep_error (s := s.withChecks .unchecked) hd]
    exact raiseFatal_buildsAgree (s := s.withoutBusy) hc _ _ _

theorem dataRead_buildsAgree : buildsAgree (dataRead s) (dataRead (s.withChecks .unchecked)) := by
  cases hv : s.status.valid with
  | false =>
    rw [dataRead_noInstance hf hv, dataRead_noInstance (s := s.withChecks .unchecked) hf hv]
    exact raiseFatal_buildsAgree (s := s.drawn.returning _) hc _ _ _
  | true =>
    by_cases hk : s.daddr.toNat < nbytes s.n
    · rw [dataRead_inRange hf hv hk, dataRead_inRange (s := s.withChecks .unchecked) hf hv hk]
      exact checkStorage_buildsAgree (.runs hf)
    · have hk := Nat.le_of_not_lt hk
      rw [dataRead_outOfRange hf hv hk, dataRead_outOfRange (s := s.withChecks .unchecked) hf hv hk]
      exact raiseFatal_buildsAgree (s := s.drawn.returning _) hc _ _ _

theorem dataWrite_buildsAgree (w : Word) : buildsAgree (dataWrite w s) (dataWrite w (s.withChecks .unchecked)) := by
  cases hv : s.status.valid with
  | false =>
    rw [dataWrite_noInstance hf hv, dataWrite_noInstance (s := s.withChecks .unchecked) hf hv]
    exact raiseFatal_buildsAgree hc _ _ _
  | true =>
    by_cases hk : s.daddr.toNat < nbytes s.n
    · rw [dataWrite_inRange hf hv hk, dataWrite_inRange (s := s.withChecks .unchecked) hf hv hk]
      exact checkStorage_buildsAgree (.runs hf)
    · have hk := Nat.le_of_not_lt hk
      rw [dataWrite_outOfRange hf hv hk, dataWrite_outOfRange (s := s.withChecks .unchecked) hf hv hk]
      exact raiseFatal_buildsAgree hc _ _ _

theorem portRead_buildsAgree (off : PortOffset) :
    buildsAgree (portRead off s) (portRead off (s.withChecks .unchecked)) := by
  cases hr : Reg.ofOffset off with
  | none =>
    rw [portRead_unmapped hr, portRead_unmapped hr]
    exact .runs hf
  | some r =>
    by_cases hd : r = .data
    · rw [portRead_data (hd ▸ hr), portRead_data (hd ▸ hr)]
      exact dataRead_buildsAgree hc hf
    · rw [portRead_reg hr hd, portRead_reg hr hd, regValue_withChecks]
      exact .runs hf

theorem regWrite_buildsAgree (r : Reg) (v : Word) :
    buildsAgree (regWrite r v s) (regWrite r v (s.withChecks .unchecked)) := by
  cases r with
  | data => exact dataWrite_buildsAgree hc hf v
  | _ => exact .runs hf

theorem portWrite_buildsAgree (off : PortOffset) (v : Word) :
    buildsAgree (portWrite off v s) (portWrite off v (s.withChecks .unchecked)) := by
  cases hr : Reg.ofOffset off with
  | none =>
    rw [portWrite_unmapped hr, portWrite_unmapped hr]
    exact .runs hf
  | some r =>
    rw [portWrite_reg hf hr, portWrite_reg (s := s.withChecks .unchecked) hf hr]
    exact regWrite_buildsAgree hc hf r v

/-- A malformed access is refused in both builds for its own reason (20_memory.md R71); reset keeps the build and leaves
no block halted (70_reset_and_hazards.md R310). -/
theorem takeInput_buildsAgree (x : Input) (rest : List Input) :
    buildsAgree (takeInput x rest s) (takeInput x rest (s.withChecks .unchecked)) := by
  cases x with
  | read w off =>
    cases hl : accessLegal w off with
    | true =>
      rw [takeInput_read hl, takeInput_read hl]
      exact portRead_buildsAgree (s := s.taking rest) hc hf off
    | false =>
      rw [takeInput_read_illegal hl, takeInput_read_illegal hl]
      exact .refuses nofun
  | write w off v =>
    cases hl : accessLegal w off with
    | true =>
      rw [takeInput_write hl, takeInput_write hl]
      exact portWrite_buildsAgree (s := s.taking rest) hc hf off v
    | false =>
      rw [takeInput_write_illegal hl, takeInput_write_illegal hl]
      exact .refuses nofun
  | poll => exact .runs hf
  | reset => exact .runs rfl

/-- The same agent moves in both builds. -/
theorem step_buildsAgree : buildsAgree (step s) (step (s.withChecks .unchecked)) := by
  cases hm : nextMove s with
  | engine =>
    rw [step_engine hm, step_engine (s := s.withChecks .unchecked) hm]
    exact engineStep_buildsAgree hc hf
  | input x rest =>
    rw [step_input hm, step_input (s := s.withChecks .unchecked) hm]
    exact takeInput_buildsAgree hc hf x rest
  | idle =>
    rw [step_idle hm, step_idle (s := s.withChecks .unchecked) hm]
    exact .runs hf

end

end

/-- Settles O16: an unchecked block is a checked one put into the unchecked build, and the steps of the two agree. -/
theorem uncheckedBuildRefusesExactlyFatal : Obligations.UncheckedBuildRefusesExactlyFatal := by
  intro s hu hf
  have hs : (s.withChecks .checked).withChecks .unchecked = s := by rw [← hu]; rfl
  have key := step_buildsAgree (s := s.withChecks .checked) rfl hf
  rw [hs] at key
  refine ⟨key.refused_iff, fun t ht hrun => ?_⟩
  exact buildsAgree.next_of_running (ht ▸ key) hrun

end Sys2Proof.Machine
end

section
/-! Proofs for 20_memory.md, what the host sees while a command is pending: every unheld input but a reset shows it STATUS
from before the command and changes nothing else of the block (R87, log 7). -/

namespace Sys2Proof.Machine

/-- The host has seen STATUS while a command is pending: the word is returned, and one input fewer may come before the
engine. The inputs `later` are still to come. -/
def State.sawStatus (later : List Input) (s : State) : State :=
  { s with inputs := later, reads := s.reads ++ [s.status.word], delay := s.delay - 1 }

/-- An input that is not held is taken, pending command or not, if the delay has not run out. -/
theorem step_unheld {s : State} {x : Input} {rest : List Input} (hi : s.inputs = x :: rest) (hx : x.held = false)
    (hd : s.delay ≠ 0) : step s = takeInput x rest s :=
  step_input ((nextMove_input_iff s x rest).mpr ⟨hi, fun _ => ⟨hx, hd⟩⟩)

section
variable {s : State} (hb : s.status.busy = true)
include hb

/-- An input that comes while a command is pending counts the delay down. -/
theorem State.waited_of_busy : s.waited = { s with delay := s.delay - 1 } := by
  rw [State.waited, if_pos hb]

theorem takeInput_readStatus_of_busy (rest : List Input) :
    takeInput (.read 4 Reg.status.offset) rest s = .next (s.sawStatus rest) := by
  rw [takeInput_read (accessLegal_offset .status), portRead_status, State.taking, State.waited_of_busy hb]
  rfl

/-- The POLL that has seen BUSY = 1 is to read again (30_encoding.md R130). -/
theorem takeInput_poll_of_busy (rest : List Input) :
    takeInput .poll rest s = .next (s.sawStatus (.poll :: rest)) := by
  simp only [takeInput, pollOnce, State.waited_of_busy hb, State.returning, hb, if_true, State.sawStatus]

/-- The inputs still to come are some of those there were. -/
theorem takeInput_unheld_of_busy {x : Input} {rest : List Input} (hx : x.held = false) (hr : x ≠ .reset) :
    ∃ later, later ⊆ x :: rest ∧ takeInput x rest s = .next (s.sawStatus later) := by
  cases x with
  | read w off =>
    obtain ⟨rfl, rfl⟩ := held_read_eq_false_iff.mp hx
    exact ⟨rest, List.subset_cons_self _ _, takeInput_readStatus_of_busy hb rest⟩
  | write w off v => exact nomatch hx
  | poll => exact ⟨_, List.Subset.refl _, takeInput_poll_of_busy hb rest⟩
  | reset => exact absurd rfl hr

/-- Once the delay has run out the engine moves, whatever input is next. -/
theorem engineTurn_of_delay_eq_zero (hd : s.delay = 0) : engineTurn s := ⟨hb, .inr (.inl hd)⟩

end

/-- Settles O53. -/
theorem statusReadWhilePending : Obligations.StatusReadWhilePending := by
  intro s rest hb hi
  refine ⟨fun hd => ⟨?_, ?_⟩, fun hd => step_of_engineTurn (engineTurn_of_delay_eq_zero hb hd)⟩
  · exact (step_unheld hi rfl hd).trans (takeInput_readStatus_of_busy hb rest)
  · obtain ⟨hbusy, -⟩ := statusWordLayout.1 s.status
    exact hbusy.trans hb

end Sys2Proof.Machine
end

section
/-! Proofs for 70_reset_and_hazards.md: the reset input (R310), and the pending command that comes to its execution (R330
with the finite delay of log 7). -/

namespace Sys2Proof.Machine

/-! ### The reset input -/

/-- Settles O8: with the delay run out the engine moves, and takes no input. -/
theorem resetInputDiscardsPending : Obligations.ResetInputDiscardsPending := by
  intro s rest hi
  refine ⟨fun hturn => ?_, fun hb hd => ?_⟩
  · obtain hb | hd := hturn
    · exact step_of_idle hb hi
    · exact step_unheld hi rfl hd
  · have he : step s = engineStep s := step_of_engineTurn (engineTurn_of_delay_eq_zero hb hd)
    exact ⟨he, fun t ht => hi ▸ engineStep_outside (he ▸ ht)⟩

/-! ### The pending command -/

/-- `t` is `s` but for what STATUS reads while a command is pending change: the inputs to come, the values returned and the
delay. -/
def samePending (s t : State) : Prop := t = { s with inputs := t.inputs, reads := t.reads, delay := t.delay }

/-- Where the engine does not move yet, the step shows the host STATUS and counts the delay down. -/
theorem step_of_not_engineTurn {s : State} (hb : s.status.busy = true) (hr : .reset ∉ s.inputs)
    (ht : ¬ engineTurn s) :
    ∃ later, later ⊆ s.inputs ∧ step s = .next (s.sawStatus later) := by
  have hd : s.delay ≠ 0 := fun hd => ht (engineTurn_of_delay_eq_zero hb hd)
  cases hi : s.inputs with
  | nil => exact absurd ⟨hb, .inl hi⟩ ht
  | cons x rest =>
    have hx : x.held = false := Bool.eq_false_iff.mpr fun hx => ht ⟨hb, .inr (.inr ⟨x, rest, hi, hx⟩)⟩
    have hne : x ≠ .reset := fun h => hr (by simp [hi, h])
    rw [step_unheld hi hx hd]
    exact takeInput_unheld_of_busy hb hx hne

theorem run_succ_of_step {M : Host.Core} {s t : M.State} (h : M.step s = .next t) (k : Nat) :
    M.run (k + 1) s = M.run k t := by
  rw [Host.Core.run, h]

/-- By induction on the delay, which every step before the engine's counts down. -/
theorem run_reaches_engineTurn {s : State} (hb : s.status.busy = true) (hr : .reset ∉ s.inputs) :
    ∃ k, k ≤ s.delay ∧ ∃ t : State, Sys2Proof.core.run k s = .next t ∧ engineTurn t ∧ samePending s t := by
  induction hd : s.delay generalizing s with
  | zero => exact ⟨0, Nat.le_refl _, s, rfl, engineTurn_of_delay_eq_zero hb hd, rfl⟩
  | succ d ih =>
    by_cases hturn : engineTurn s
    · exact ⟨0, Nat.zero_le _, s, rfl, hturn, rfl⟩
    · obtain ⟨later, hsub, hstep⟩ := step_of_not_engineTurn hb hr hturn
      have hdelay : (s.sawStatus later).delay = d := Nat.sub_eq_of_eq_add hd
      obtain ⟨k, hk, t, hrun, ht, hsame⟩ := ih (s := s.sawStatus later) hb (fun h => hr (hsub h)) hdelay
      exact ⟨k + 1, Nat.succ_le_succ hk, t, (run_succ_of_step (M := Sys2Proof.core) hstep k).trans hrun, ht, hsame⟩

/-- Settles O7. -/
theorem pendingCommandIsExecuted : Obligations.PendingCommandIsExecuted := by
  intro s hb hr
  exact run_reaches_engineTurn hb fun h => hr _ h rfl

end Sys2Proof.Machine
end

section
/-! Proofs for 10_state.md, the bytes the storage has (R34, 20_memory.md R70): a command that uses the storage comes to its
last check, and where the in-use bytes run past the end of the storage that check stops it (log 11). -/

namespace Sys2Proof.Machine

theorem storageFits_eq_false {s : State} (h : nbytes s.maxBits < nbytes s.n) : s.storageFits = false :=
  decide_eq_false (Nat.not_le.mpr h)

/-- The checks before the storage's pass: there is a vector, the indices are below `n`, so `n` is not 0 (60_exceptions.md
R278). -/
theorem exec_of_storageHole {i : Instr} {s : State} (hi : i ∉ [Instr.nop, .create, .resize, .destroy])
    (hv : s.status.valid = true) (h0 : s.arg0.toNat < s.n) (h1 : s.arg1.toNat < s.n) (hs : s.storageFits = false) :
    exec i s = .fault .storageHole := by
  have hn : s.n ≠ 0 := Nat.ne_zero_of_lt h0
  cases i with
  | nop | create | resize | destroy => exact absurd (by decide) hi
  | countSet | countClear => exact (checkInstance_pass hv _ _).trans (checkStorage_fail hs _)
  | get | set | clear | toggle | findNextClear | findNextSet | findPrevClear | findPrevSet =>
    exact (checkInstance_pass hv _ _).trans ((checkIndex_pass h0 _ _).trans (checkStorage_fail hs _))
  | setRegion | clearRegion | toggleRegion =>
    exact (checkInstance_pass hv _ _).trans
      ((checkIndex_pass h0 _ _).trans ((checkIndex_pass h1 _ _).trans (checkStorage_fail hs _)))
  | setAll | clearAll | toggleAll | firstClear | firstSet | lastClear | lastSet =>
    exact (checkInstance_pass hv _ _).trans ((checkNonempty_pass hn _ _).trans (checkStorage_fail hs _))

/-- Settles O17. -/
theorem storageHoleStops : Obligations.StorageHoleStops := by
  intro i s hi hv hover h0 h1
  exact exec_of_storageHole hi hv h0 h1 (storageFits_eq_false hover)

end Sys2Proof.Machine
end
